-- ==== Sys2Proof/Word.lean ====
section
/-! DEFINITION. The word types of the machine: a byte of either memory (20_memory.md R60) and the 32-bit words of the
command and response ports (00_scope.md R7, CMD_W). -/

namespace Sys2Proof

/-- One byte of pattern or haystack memory. -/
abbrev Byte := BitVec 8

/-- A command word or a response word (`CMD_W` = 32). -/
abbrev Word := BitVec 32

end Sys2Proof
end

