-- ==== Sys2Proof/Syntax.lean ====
section
/-! DEFINITION. The command set BMCMD-1: one constructor for each row of spec/opcode_table.json (30_encoding.md R94).
Operands are the unsigned numbers of the fields A and B, used as they stand (R93). That an operand fits its field is
WellFormed's check; whether its value is legal is decided by the command's meaning (R93). -/

namespace Sys2Proof

/-- One command with its operand values, in the order of R101. -/
inductive Instr where
  /-- `NOP`, R200. -/
  | nop
  /-- `HAYLEN bytes`, R160. -/
  | haylen (bytes : Nat)
  /-- `PATBEGIN nbits`, R143. -/
  | patbegin (nbits : Nat)
  /-- `PATNIB v`, R144. -/
  | patnib (v : Nat)
  /-- `SCAN`, R168. -/
  | scan
  /-- `MATCH off`, R191. -/
  | matchAt (off : Nat)
  /-- `EXTH off, cnt`, R126. -/
  | exth (off cnt : Nat)
  /-- `EXTP off, cnt`, R127. -/
  | extp (off cnt : Nat)
  /-- `RDREG r`, R201. -/
  | rdreg (r : Nat)
  /-- `CLRERR`, R202. -/
  | clrerr
  /-- `SRESET`, R203. -/
  | sreset
  /-- `WINIT`, R163. -/
  | winit
  /-- `WCHECK`, R165. -/
  | wcheck
  /-- `WSHIFT`, R167. -/
  | wshift
  deriving DecidableEq, Repr

/-- Why a command word is illegal (30_encoding.md R95, R96). -/
inductive Illegal where
  /-- Opcode 0xE or 0xF, R95. -/
  | reservedOpcode (op : Nat)
  /-- A field that the opcode's format does not use is not zero, R96. -/
  | fieldNotZero (op : Nat)
  deriving DecidableEq, Repr

end Sys2Proof
end

