-- ==== Sys2Proof/WellFormed.lean ====
section
/-! DEFINITION. Which commands can be assembled: an operand fits its field (30_encoding.md R101: "An operand that does
not fit its field cannot be assembled; the assembler rejects it"). -/

namespace Sys2Proof

/-- The operand fits field `A`, 24 bits (R91). -/
def fitsA (a : Nat) : Bool := decide (a < 2 ^ 24)

/-- The operand fits field `B`, 4 bits (R91). -/
def fitsB (b : Nat) : Bool := decide (b < 2 ^ 4)

/-- The command can be assembled, R101. -/
def Instr.wellFormed : Instr → Bool
  | .nop => true
  | .haylen bytes => fitsA bytes
  | .patbegin nbits => fitsA nbits
  | .patnib v => fitsA v
  | .scan => true
  | .matchAt off => fitsA off
  | .exth off cnt => fitsA off && fitsB cnt
  | .extp off cnt => fitsA off && fitsB cnt
  | .rdreg r => fitsA r
  | .clrerr => true
  | .sreset => true
  | .winit => true
  | .wcheck => true
  | .wshift => true

end Sys2Proof
end

