-- ==== Sys2Proof/Decode.lean ====
section
/-! DEFINITION. The decoder (total, 30_encoding.md R97), after it the encoder, both from the opcode map R94 and the
formats R92. Decoding depends on no state (R97). -/

namespace Sys2Proof

/-- `OP` = `cmd[31:28]`, R91. -/
def opField (w : Word) : Nat := (w.extractLsb' 28 4).toNat

/-- `B` = `cmd[27:24]`, R91. -/
def bField (w : Word) : Nat := (w.extractLsb' 24 4).toNat

/-- `A` = `cmd[23:0]`, R91. -/
def aField (w : Word) : Nat := (w.extractLsb' 0 24).toNat

/-- Format Z: `B` and `A` must be zero, R92, R96. -/
def formatZ (w : Word) (i : Instr) : Except Illegal Instr :=
  if bField w = 0 ∧ aField w = 0 then .ok i else .error (.fieldNotZero (opField w))

/-- Format A: `B` must be zero, `A` is the operand, R92, R96. -/
def formatA (w : Word) (i : Nat → Instr) : Except Illegal Instr :=
  if bField w = 0 then .ok (i (aField w)) else .error (.fieldNotZero (opField w))

/-- Format BA: `A` and `B` are operands, every word decodes, R92, R96. -/
def formatBA (w : Word) (i : Nat → Nat → Instr) : Except Illegal Instr :=
  .ok (i (aField w) (bField w))

/-- The opcode map R94; opcodes 0xE and 0xF are reserved, R95. -/
def decode (w : Word) : Except Illegal Instr :=
  match opField w with
  | 0x0 => formatZ w .nop
  | 0x1 => formatA w .haylen
  | 0x2 => formatA w .patbegin
  | 0x3 => formatA w .patnib
  | 0x4 => formatZ w .scan
  | 0x5 => formatA w .matchAt
  | 0x6 => formatBA w .exth
  | 0x7 => formatBA w .extp
  | 0x8 => formatA w .rdreg
  | 0x9 => formatZ w .clrerr
  | 0xA => formatZ w .sreset
  | 0xB => formatZ w .winit
  | 0xC => formatZ w .wcheck
  | 0xD => formatZ w .wshift
  | op => .error (.reservedOpcode op)

/-- What the decoder reads from a table row's word: `nbits` bits of `w`, every bit above them zero. A command is one
32-bit word on a port, so there is no byte order (20_memory.md R65). -/
def decodeTableWord (nbits w : Nat) : Option Instr :=
  match decode (BitVec.ofNat 32 (w % 2 ^ nbits)) with
  | .ok i => some i
  | .error _ => none

/-- The three fields of a command word put together, R91. -/
def packFields (op b a : Nat) : Word := BitVec.ofNat 32 (op * 2 ^ 28 + b * 2 ^ 24 + a)

/-- The word of a command, R101. -/
def encode : Instr → Word
  | .nop => packFields 0x0 0 0
  | .haylen bytes => packFields 0x1 0 bytes
  | .patbegin nbits => packFields 0x2 0 nbits
  | .patnib v => packFields 0x3 0 v
  | .scan => packFields 0x4 0 0
  | .matchAt off => packFields 0x5 0 off
  | .exth off cnt => packFields 0x6 cnt off
  | .extp off cnt => packFields 0x7 cnt off
  | .rdreg r => packFields 0x8 0 r
  | .clrerr => packFields 0x9 0 0
  | .sreset => packFields 0xA 0 0
  | .winit => packFields 0xB 0 0
  | .wcheck => packFields 0xC 0 0
  | .wshift => packFields 0xD 0 0

/-- The columns `match` and `mask` of the opcode map R94: `(match, mask)`. -/
def Instr.matchMask : Instr → Word × Word
  | .nop => (0x00000000#32, 0xFFFFFFFF#32)
  | .haylen _ => (0x10000000#32, 0xFF000000#32)
  | .patbegin _ => (0x20000000#32, 0xFF000000#32)
  | .patnib _ => (0x30000000#32, 0xFF000000#32)
  | .scan => (0x40000000#32, 0xFFFFFFFF#32)
  | .matchAt _ => (0x50000000#32, 0xFF000000#32)
  | .exth _ _ => (0x60000000#32, 0xF0000000#32)
  | .extp _ _ => (0x70000000#32, 0xF0000000#32)
  | .rdreg _ => (0x80000000#32, 0xFF000000#32)
  | .clrerr => (0x90000000#32, 0xFFFFFFFF#32)
  | .sreset => (0xA0000000#32, 0xFFFFFFFF#32)
  | .winit => (0xB0000000#32, 0xFFFFFFFF#32)
  | .wcheck => (0xC0000000#32, 0xFFFFFFFF#32)
  | .wshift => (0xD0000000#32, 0xFFFFFFFF#32)

/-- The pseudo-instruction `PATLOAD nbits, digits` (R102): notation, not hardware. It needs exactly `ceil(nbits / 4)`
hexadecimal digits. -/
def patLoad (nbits : Nat) (digits : List Nat) : Option (List Instr) :=
  if digits.length = (nbits + 3) / 4 ∧ digits.all (· < 16) then
    some (.patbegin nbits :: digits.map .patnib)
  else none

end Sys2Proof
end

