-- ==== Sys2Proof/Config.lean ====
section
/-! DEFINITION. What the hardware fixes once (00_scope.md R6, R7; 10_state.md R22) and the free values: what the spec
leaves at "any value" (93_implementation_defined.md U5, U9). An opaque constant has no body here: nothing can evaluate
it or prove a value of it. -/

namespace Sys2Proof.Config

/-- The modulus of the hash, R6. -/
abbrev prime : Nat := 167

/-- The inverse of 2 modulo `prime`, the initial value of `rnum`, R6. -/
abbrev inv2 : Nat := 84

/-- The hardwired value of register `ID`, R22. -/
abbrev idValue : BitVec 24 := 0x424D01#24

/-- The largest legal haystack byte count, R8 and R25 (`HB_W` = 21). -/
abbrev maxHayBytes : Nat := 2 ^ 21 - 1

/-- The range of the open parameter `PAT_CAP_BYTES`, R7. -/
abbrev patCapMin : Nat := 8
@[inherit_doc patCapMin] abbrev patCapMax : Nat := 2 ^ 21

/-- DESIGN CHOICE (log 4): the spec's reference value of `PAT_CAP_BYTES`, R7; only `State.reset` uses it. -/
abbrev patCapReference : Nat := 512

/-- Free value (log 5): what a byte of pattern memory holds that no command has written since power-up
(10_state.md R43, U5 "any value"). -/
opaque pmUnwritten : Nat → Byte

/-- Free value (log 6): what a byte of haystack memory holds that the host has not written. The spec gives the host's
memory no initial contents. -/
opaque hmUnwritten : Nat → Byte

/-- Free value (log 7): what the byte of pattern memory holds that a `PATNIB` was about to write when a hardware reset
dropped it (U9 "any value"), one for each value of the counter `freeIx`. -/
opaque droppedByte : Nat → Byte

end Sys2Proof.Config
end

