-- ==== Sys2Proof/Machine/State.lean ====
section
/-! DEFINITION. The state of the machine as plain data (10_state.md R20 to R43), the moves of the host that drives it
(00_scope.md R3), the reasons a step can stop, and the state after reset (R43, 70_reset_and_hazards.md R250). -/

namespace Sys2Proof.Machine

/-- `PSTATE`, the life cycle of the compiled pattern, R34. The code 3 never occurs, so there is no such value
(93_implementation_defined.md U7). -/
inductive PState where
  /-- No pattern. -/
  | none
  /-- A compile is open. -/
  | loading
  /-- The compiled pattern is complete. -/
  | ready
  deriving DecidableEq, Repr

/-- `VERDICT`, R33. The code 3 never occurs (U7). -/
inductive Verdict where
  /-- No scan since the pattern or the haystack length was last set. -/
  | none
  /-- The last scan found the pattern at `MOFF`. -/
  | found
  /-- The last scan did not find the pattern. -/
  | notFound
  deriving DecidableEq, Repr

/-- The five error codes, 60_exceptions.md R220. -/
inductive Err where
  /-- `E_ILLEGAL` -/
  | illegal
  /-- `E_MALFORMED` -/
  | malformed
  /-- `E_STATE` -/
  | state
  /-- `E_RANGE` -/
  | range
  /-- `E_CAPACITY` -/
  | capacity
  deriving DecidableEq, Repr

/-- What `VAL` of a response word is, 30_encoding.md R99. -/
inductive Kind where
  | none
  | found
  | notFound
  | value
  deriving DecidableEq, Repr

/-- The two memories a command can read, 20_memory.md R60. -/
inductive Space where
  | haystack
  | pattern
  deriving DecidableEq, Repr

/-- The written bytes of a memory: (address, byte) pairs with strictly rising addresses. An unlisted address has no
value of its own; what a read of it answers is `unlistedByte` of Machine/Ops.lean (log 5, log 6). -/
abbrev Memory := List Host.Cell

/-- What the host does next (00_scope.md R3, 70_reset_and_hazards.md R250). There is no move that writes haystack
memory while a command runs (20_memory.md R73 (c), U2). -/
inductive HostMove where
  /-- Deliver one command word and get its response. -/
  | send (w : Word)
  /-- Write one byte of haystack memory, between commands. -/
  | write (a : BitVec 21) (b : Byte)
  /-- Assert `rst` while no command is running, R250. -/
  | reset
  /-- Deliver one command word and assert `rst` before its response: the command is dropped, R250, U9. -/
  | sendReset (w : Word)
  deriving DecidableEq, Repr

/-- Why a step stops. Each is raised only where the spec gives a function no value or a byte does not exist, and no
run from reset reaches one (log 8). Stopping is SAFE: nothing is proved about what the hardware would do there. -/
inductive Fault where
  /-- Raised by `extract` outside its preconditions `1 ≤ c ≤ 8`, `off + c ≤ BL` (40_bitfield_accessor.md R120, R125,
  U1: "this spec gives it no value there"). Safe. -/
  | accessorDomain
  /-- Raised by a byte read or write at an address the memory does not have (20_memory.md R70). Safe. -/
  | noSuchByte (sp : Space) (a : Nat)
  /-- Raised where the window would start before offset 0, `WEND < PBITS` (excluded by 10_state.md R42 I8). Safe. -/
  | windowUnderflow
  /-- Raised where `PATNIB` finds no bit wanted, `PFILL ≥ PBITS` while loading (excluded by R42 I4). Safe. -/
  | noBitsWanted
  deriving DecidableEq, Repr

/-- Why the model gives no meaning. No meaning of this model uses it: every command has its effect. -/
inductive Refusal where
  /-- Raised by `exec` for a command that has no meaning yet; no arm does so. Safe. -/
  | notModelled (mnemonic : String)
  deriving DecidableEq, Repr

/-- The machine: the block's registers and pattern memory (R20), the host's haystack memory (R41), the instance's
parameter, the response channel and the host's moves to come. -/
structure State where
  /-- `PSTATE`, R34. -/
  pstate : PState
  /-- `WVALID`, R35. -/
  wvalid : Bool
  /-- `ERR` (`x[2]`), R24; `none` is the code 0, "no error recorded". -/
  err : Option Err
  /-- `HBYTES` (`x[3]`), R25. -/
  hbytes : BitVec 21
  /-- `PBITS` (`x[4]`), R26. -/
  pbits : BitVec 24
  /-- `PFILL` (`x[5]`), R27. -/
  pfill : BitVec 24
  /-- `PHASH` (`x[6]`), R28. -/
  phash : BitVec 8
  /-- `PCAN` (`x[7]`), R29. -/
  pcan : BitVec 8
  /-- `RNUM` (`x[8]`), R30. -/
  rnum : BitVec 8
  /-- `LHASH` (`x[9]`), R31. -/
  lhash : BitVec 8
  /-- `WEND` (`x[10]`), R32. -/
  wend : BitVec 24
  /-- `VERDICT` (`x[11]`), R33. -/
  verdict : Verdict
  /-- `MOFF` (`x[12]`), R33. -/
  moff : BitVec 24
  /-- Pattern memory `PM`, R40. -/
  pm : Memory
  /-- Haystack memory `HM`, the host's, R41 (log 1). -/
  hm : Memory
  /-- `PAT_CAP_BYTES`, the parameter of the instance, 00_scope.md R7; no step changes it (log 4). -/
  patCap : Nat
  /-- The host's moves to come, next first (log 1, log 2). -/
  host : List HostMove
  /-- The response channel: the response word of the last command, `none` after a reset (R9, R250, log 3). -/
  rsp : Option Word
  /-- The model's own counter of the free values taken so far (log 7). -/
  freeIx : Nat
  deriving DecidableEq, Repr

/-- The machine right after hardware reset: the table of R43, no response offered (R250), no byte of either memory
written, no move of the host pending. `patCap` and `freeIx` are DESIGN CHOICES (log 4, log 7). -/
def State.reset : State where
  pstate := .none
  wvalid := false
  err := none
  hbytes := 0
  pbits := 0
  pfill := 0
  phash := 0
  pcan := 0
  rnum := 84#8
  lhash := 0
  wend := 0
  verdict := .none
  moff := 0
  pm := []
  hm := []
  patCap := Config.patCapReference
  host := []
  rsp := none
  freeIx := 0

end Sys2Proof.Machine
end

