-- ==== Sys2Proof/Machine/Flags.lean ====
section
/-! DEFINITION. The hardware's only flags, `STATUS` = {WVALID, PSTATE} (10_state.md R23), the numbers behind the
named values of `PSTATE`, `VERDICT`, `ERR` and `KIND`, and the updates of the verdict and window flags that several
commands share. There are no condition codes (R23). -/

namespace Sys2Proof.Machine

/-- The code of `PSTATE`, R34. -/
def PState.code : PState → Nat
  | .none => 0
  | .loading => 1
  | .ready => 2

/-- The code of `VERDICT`, R33. -/
def Verdict.code : Verdict → Nat
  | .none => 0
  | .found => 1
  | .notFound => 2

/-- The error code, 60_exceptions.md R220. -/
def Err.code : Err → Nat
  | .illegal => 1
  | .malformed => 2
  | .state => 3
  | .range => 4
  | .capacity => 5

/-- What register `ERR` reads: 0 where no error is recorded, R24. -/
def errValue : Option Err → Nat
  | none => 0
  | some e => e.code

/-- The `KIND` codes, 30_encoding.md R99. -/
def Kind.code : Kind → Nat
  | .none => 0
  | .found => 1
  | .notFound => 2
  | .value => 3

/-- `STATUS` as read: `STATUS[1:0] = PSTATE`, `STATUS[2] = WVALID`, the rest 0, R23. -/
def statusValue (s : State) : Nat := s.wvalid.toNat * 4 + s.pstate.code

/-- `WVALID <- 0 ; VERDICT <- NONE ; MOFF <- 0`: what `HAYLEN` and `PATBEGIN` do to the flags, R33, R35. -/
def forgetSearch (s : State) : State := { s with wvalid := false, verdict := .none, moff := 0 }

/-- `VERDICT <- FOUND ; MOFF <- off`, 42_rolling_hash_scanner.md R168. -/
def setFound (off : Nat) (s : State) : State := { s with verdict := .found, moff := BitVec.ofNat 24 off }

/-- `VERDICT <- NOT_FOUND ; MOFF <- 0`, R168. -/
def setNotFound (s : State) : State := { s with verdict := .notFound, moff := 0 }

end Sys2Proof.Machine
end

