-- ==== Sys2Proof/Machine/Ops.lean ====
section
/-! DEFINITION. The named operations over memory and registers, the two ways a command ends (a response, an error), and
reset of the registers. -/

namespace Sys2Proof.Machine

/-- How a command or a step ends. -/
abbrev Result := Host.Outcome State Fault Refusal

/-! ### Memory -/

/-- The byte written at an address, if any. -/
def Memory.get : Memory → Nat → Option Byte
  | [], _ => none
  | c :: m, a => if a = c.1 then some c.2 else Memory.get m a

/-- Write one byte, keeping the addresses strictly rising. -/
def Memory.put : Memory → Nat → Byte → Memory
  | [], a, b => [(a, b)]
  | c :: m, a, b =>
    if a < c.1 then (a, b) :: c :: m
    else if a = c.1 then (a, b) :: m
    else c :: Memory.put m a b

/-- Every address of the list is above `a`, and they rise. -/
def Memory.risesAbove : Nat → Memory → Bool
  | _, [] => true
  | a, c :: m => decide (a < c.1) && Memory.risesAbove c.1 m

/-- The canonical form: addresses strictly rising. An unlisted address has no value of its own (`get` is `none`), so no
entry can equal it. -/
def Memory.wf : Memory → Bool
  | [] => true
  | c :: m => Memory.risesAbove c.1 m

/-- What an unlisted address reads as: a free value of Config (log 5, log 6). -/
def unlistedByte : Space → Nat → Byte
  | .haystack, a => Config.hmUnwritten a
  | .pattern, a => Config.pmUnwritten a

/-- The written bytes of a memory space. -/
def State.memory (s : State) : Space → Memory
  | .haystack => s.hm
  | .pattern => s.pm

/-- `L = 8 * HBYTES`, 10_state.md R39. -/
def State.hayBits (s : State) : Nat := 8 * s.hbytes.toNat

/-- How many bytes the space has: `HBYTES` or `PAT_CAP_BYTES`, 20_memory.md R60. -/
def State.spaceBytes (s : State) : Space → Nat
  | .haystack => s.hbytes.toNat
  | .pattern => s.patCap

/-- The bit length `BL` of the space's buffer: `L` or `PBITS`, 40_bitfield_accessor.md R120. -/
def State.spaceBits (s : State) : Space → Nat
  | .haystack => s.hayBits
  | .pattern => s.pbits.toNat

/-- The byte that the space holds at an address: contents, whether or not a command may read it. -/
def State.byteAt (s : State) (sp : Space) (a : Nat) : Byte :=
  match (s.memory sp).get a with
  | some b => b
  | none => unlistedByte sp a

/-- `MemRead(sp, a, 1)`; an address that the space does not have is a fault (20_memory.md R70). Reads have no side
effect (R69). -/
def readByte (s : State) (sp : Space) (a : Nat) : Except Fault Byte :=
  if a < s.spaceBytes sp then .ok (s.byteAt sp a) else .error (.noSuchByte sp a)

/-- `MemWrite(PM, a, 1, b)`: the only write of a command (20_memory.md R71). -/
def writePattern (a : Nat) (b : Byte) (s : State) : Except Fault State :=
  if a < s.patCap then .ok { s with pm := s.pm.put a b } else .error (.noSuchByte .pattern a)

/-- `ceil8(n)`, the number of bytes that hold `n` bits (00_scope.md section 6). -/
def ceil8 (n : Nat) : Nat := (n + 7) / 8

/-! ### Registers -/

/-- `x[r]` zero-extended to 24 bits, 10_state.md R21; there is no register above 12. -/
def State.reg (s : State) (r : Nat) : Option (BitVec 24) :=
  match r with
  | 0 => some Config.idValue
  | 1 => some (BitVec.ofNat 24 (statusValue s))
  | 2 => some (BitVec.ofNat 24 (errValue s.err))
  | 3 => some (s.hbytes.setWidth 24)
  | 4 => some s.pbits
  | 5 => some s.pfill
  | 6 => some (s.phash.setWidth 24)
  | 7 => some (s.pcan.setWidth 24)
  | 8 => some (s.rnum.setWidth 24)
  | 9 => some (s.lhash.setWidth 24)
  | 10 => some s.wend
  | 11 => some (BitVec.ofNat 24 s.verdict.code)
  | 12 => some s.moff
  | _ => none

/-- Every register at its reset value, 10_state.md R43. Pattern memory, haystack memory and everything outside the
block stay as they are. -/
def resetRegisters (s : State) : State :=
  { s with
    pstate := .none, wvalid := false, err := none, hbytes := 0, pbits := 0, pfill := 0, phash := 0, pcan := 0,
    rnum := BitVec.ofNat 8 Config.inv2, lhash := 0, wend := 0, verdict := .none, moff := 0 }

/-! ### The end of a command -/

/-- The response word `{ERRC, KIND, VAL}`, 30_encoding.md R98. -/
def responseWord (errc : Nat) (k : Kind) (val : BitVec 24) : Word :=
  (BitVec.ofNat 4 errc ++ BitVec.ofNat 4 k.code : BitVec 8) ++ val

/-- The response channel offers `w`. -/
def offer (w : Word) (s : State) : State := { s with rsp := some w }

/-- `respond(KIND, val)`: end the command successfully, R99. -/
def respond (k : Kind) (val : BitVec 24) (s : State) : Result := .next (offer (responseWord 0 k val) s)

/-- The response word of a failing command, `ERRC << 28`, R100. -/
def errorWord (e : Err) : Word := responseWord e.code .none 0

/-- What a failing command leaves: `ERR` takes the code only if it held none (R24), and the response is the code. -/
def afterError (e : Err) (s : State) : State :=
  offer (errorWord e) { s with err := s.err.or (some e) }

/-- `raise E_X` (60_exceptions.md R223): this machine's whole "trap entry". There is no handler, vector, saved state or
mode, and no return from it (R223, R225). -/
def raise (e : Err) (s : State) : Result := .next (afterError e s)

/-- `ERR <- 0`: what stands in place of a return from an error (R225, R202). -/
def clearError (s : State) : State := { s with err := none }

/-- Go on with what a read or another partial operation answered; its fault stops the command. -/
def andThen {α : Type} (x : Except Fault α) (k : α → Result) : Result :=
  match x with
  | .ok a => k a
  | .error f => .fault f

end Sys2Proof.Machine
end

