-- ==== Sys2Proof/Machine/Operands.lean ====
section
/-! DEFINITION. The operands a command can name: bit fields of a memory through the BitField Accessor
(40_bitfield_accessor.md), the chunk of a nibble (41_pattern_compiler.md R144), and the operand checks that several
commands share. -/

namespace Sys2Proof.Machine

/-- `bit(buf, k)`: bit 0 of a byte is its most significant bit, 00_scope.md R10. -/
def bitOf (b : Byte) (r : Nat) : Nat := (b.toNat >>> (7 - r)) &&& 1

/-- Bit `k` of a memory space's contents, R10. -/
def State.bitAt (s : State) (sp : Space) (k : Nat) : Nat := bitOf (s.byteAt sp (k / 8)) (k % 8)

/-- `extract(buf, off, c)`: the two consume steps of R122; byte `q + 1` is read only if `t2 > 0` (R123). Outside the
preconditions of R120 the spec gives no value (R125): a fault. -/
def extract (s : State) (sp : Space) (off c : Nat) : Except Fault Nat :=
  if 1 ≤ c ∧ c ≤ 8 ∧ off + c ≤ s.spaceBits sp then
    let q := off / 8
    let r := off % 8
    let t1 := min c (8 - r)
    let t2 := c - t1
    match readByte s sp q with
    | .error f => .error f
    | .ok b1 =>
      let v1 := (b1.toNat >>> (8 - r - t1)) &&& (2 ^ t1 - 1)
      if t2 = 0 then .ok v1
      else
        match readByte s sp (q + 1) with
        | .error f => .error f
        | .ok b2 =>
          let v2 := (b2.toNat >>> (8 - t2)) &&& (2 ^ t2 - 1)
          .ok ((v1 <<< t2) ||| v2)
  else .error .accessorDomain

/-- The operand check of `EXTH` and `EXTP`, R126, R127: sums are exact. -/
def badField (off cnt bits : Nat) : Bool := decide (cnt < 1 ∨ 8 < cnt ∨ bits < off + cnt)

/-- `chunk_value`: the top `w` bits of a nibble, R144. -/
def chunkValue (v w : Nat) : Nat := v >>> (4 - w)

/-- The chunk back in the nibble's top `w` positions, zeros below, R145. -/
def paddedChunk (v w : Nat) : Nat := chunkValue v w <<< (4 - w)

/-- The scanner's window commands need a complete pattern and a valid window, R165, R167. -/
def noWindow (s : State) : Bool := decide (s.pstate ≠ .ready) || !s.wvalid

/-- The window start `WEND - PBITS`, 42_rolling_hash_scanner.md R161. -/
def windowStart (s : State) : Except Fault Nat :=
  if s.pbits.toNat ≤ s.wend.toNat then .ok (s.wend.toNat - s.pbits.toNat) else .error .windowUnderflow

end Sys2Proof.Machine
end

