-- ==== Sys2Proof/Machine/Hash.lean ====
section
/-! DEFINITION. The modular hash datapath (41_pattern_compiler.md R140, R142) and the phase functions built on it:
the initial hash, the shift and the check of one window position (42_rolling_hash_scanner.md R162, R164, R166), with the
exact matcher (43_exact_matcher.md R190). Arithmetic is over the naturals and every result is below 167, so the 8-bit
registers hold it exactly (R149). -/

namespace Sys2Proof.Machine

/-- `fold(h, w, v) = ((h << w) + v) mod 167`, R140: shift first, then add (90_conflicts.md C1). -/
def fold (h w v : Nat) : Nat := ((h <<< w) + v) % Config.prime

/-- The `rnum` update `(r << w) mod 167`, R142. -/
def rnumStep (r w : Nat) : Nat := (r <<< w) % Config.prime

/-- `cancel_term = 167 - rnum`, R144, R147 (90_conflicts.md C2). -/
def cancelTerm (r : Nat) : Nat := Config.prime - r

/-- The loop of `hinit` from offset `j` with hash `h`, at most `fuel` chunks, R162. -/
def hashChunks (s : State) (n : Nat) : Nat → Nat → Nat → Except Fault Nat
  | 0, _, h => .ok h
  | fuel + 1, j, h =>
    if j < n then
      let c := min 8 (n - j)
      match extract s .haystack j c with
      | .error f => .error f
      | .ok v => hashChunks s n fuel (j + c) (fold h c v)
    else .ok h

/-- `hinit()`: the hash of the first `PBITS` haystack bits, R162. -/
def hashInit (s : State) : Except Fault Nat :=
  hashChunks s s.pbits.toNat (ceil8 s.pbits.toNat) 0 0

/-- The loop of `matches(start)` from pattern offset `j`, at most `fuel` chunks, R190. -/
def matchChunks (s : State) (start n : Nat) : Nat → Nat → Except Fault Bool
  | 0, _ => .ok true
  | fuel + 1, j =>
    if j < n then
      let c := min 8 (n - j)
      match extract s .haystack (start + j) c with
      | .error f => .error f
      | .ok v =>
        match extract s .pattern j c with
        | .error f => .error f
        | .ok p => if v = p then matchChunks s start n fuel (j + c) else .ok false
    else .ok true

/-- `matches(start)`, the exact matcher, R190. -/
def patternMatches (s : State) (start : Nat) : Except Fault Bool :=
  matchChunks s start s.pbits.toNat (ceil8 s.pbits.toNat) 0

/-- `check()`: (hash hit, match), the matcher run only on a hit, R164. -/
def checkWindow (s : State) : Except Fault (Bool × Bool) :=
  match windowStart s with
  | .error f => .error f
  | .ok start =>
    if s.lhash = s.phash then
      match patternMatches s start with
      | .error f => .error f
      | .ok m => .ok (true, m)
    else .ok (false, false)

/-- The live hash after the window moved by one bit: cancel the leaving bit, then fold the entering one, R166. -/
def shiftedHash (h can out inc : Nat) : Nat :=
  fold (if out = 1 then (h + can) % Config.prime else h) 1 inc

/-- `LHASH <- h ; WEND <- WEND + 1`, the writes of `shift()`, R166. -/
def moveWindow (h : Nat) (s : State) : State :=
  { s with lhash := BitVec.ofNat 8 h, wend := BitVec.ofNat 24 (s.wend.toNat + 1) }

/-- `shift()`, R166. -/
def shiftWindow (s : State) : Except Fault State :=
  match windowStart s with
  | .error f => .error f
  | .ok start =>
    match extract s .haystack start 1 with
    | .error f => .error f
    | .ok out =>
      match extract s .haystack s.wend.toNat 1 with
      | .error f => .error f
      | .ok inc => .ok (moveWindow (shiftedHash s.lhash.toNat s.pcan.toNat out inc) s)

/-- `LHASH <- h ; WEND <- PBITS ; WVALID <- 1`, R163, R168. -/
def openWindow (h : Nat) (s : State) : State :=
  { s with lhash := BitVec.ofNat 8 h, wend := s.pbits, wvalid := true }

end Sys2Proof.Machine
end

