-- ==== Sys2Proof/Machine/Accessor.lean ====
section
/-! DEFINITION. The accessor's commands, 40_bitfield_accessor.md R126, R127. -/

namespace Sys2Proof.Machine

/-- `EXTH off, cnt`, R126. -/
def execExth (off cnt : Nat) (s : State) : Result :=
  if badField off cnt s.hayBits then raise .range s
  else andThen (extract s .haystack off cnt) fun v => respond .value (BitVec.ofNat 24 v) s

/-- `EXTP off, cnt`, R127: the state check comes first, the bound is `PBITS`. -/
def execExtp (off cnt : Nat) (s : State) : Result :=
  if s.pstate ≠ .ready then raise .state s
  else if badField off cnt s.pbits.toNat then raise .range s
  else andThen (extract s .pattern off cnt) fun v => respond .value (BitVec.ofNat 24 v) s

end Sys2Proof.Machine
end

