-- ==== Sys2Proof/Machine/Compiler.lean ====
section
/-! DEFINITION. The pattern compiler's commands, 41_pattern_compiler.md R143 to R146. -/

namespace Sys2Proof.Machine

/-- The writes of an accepted `PATBEGIN nbits`, R143. -/
def openCompile (nbits : Nat) (s : State) : State :=
  { forgetSearch s with
    pbits := BitVec.ofNat 24 nbits
    pfill := 0
    phash := 0
    rnum := BitVec.ofNat 8 Config.inv2
    pcan := if nbits = 0 then BitVec.ofNat 8 (cancelTerm Config.inv2) else 0
    pstate := if nbits = 0 then .ready else .loading }

/-- `PATBEGIN nbits`, R143. -/
def execPatbegin (nbits : Nat) (s : State) : Result :=
  if s.patCap < ceil8 nbits then raise .capacity s
  else respond .none 0 (openCompile nbits s)

/-- The byte that `pack(nib)` stores at `PFILL div 8`, R145: the high nibble clears the low one. -/
def packedByte (nib fill : Nat) (old : Byte) : Byte :=
  if fill % 8 = 0 then BitVec.ofNat 8 (nib <<< 4) else BitVec.ofNat 8 ((old.toNat &&& 0xF0) ||| nib)

/-- `pack(nib)` with `fill` the value of `PFILL` before the update, R145. -/
def packNibble (nib fill : Nat) (s : State) : Except Fault State :=
  writePattern (fill / 8) (packedByte nib fill (s.byteAt .pattern (fill / 8))) s

/-- `chunk_width`: 4, or the bits still wanted if fewer, R144. -/
def chunkWidth (s : State) : Nat := min 4 (s.pbits.toNat - s.pfill.toNat)

/-- The registers after a chunk of `w` bits and value `cv`, R144: hash, `rnum`, position, and on the last chunk the
cancel term and `READY`. -/
def advanceCompile (w cv : Nat) (s : State) : State :=
  { s with
    phash := BitVec.ofNat 8 (fold s.phash.toNat w cv)
    rnum := BitVec.ofNat 8 (rnumStep s.rnum.toNat w)
    pfill := BitVec.ofNat 24 (s.pfill.toNat + w)
    pcan := if s.pfill.toNat + w = s.pbits.toNat
      then BitVec.ofNat 8 (cancelTerm (rnumStep s.rnum.toNat w)) else s.pcan
    pstate := if s.pfill.toNat + w = s.pbits.toNat then .ready else s.pstate }

/-- An accepted nibble: pack it, fold it, advance, R144. -/
def consumeNibble (v : Nat) (s : State) : Except Fault State :=
  if s.pfill.toNat < s.pbits.toNat then
    match packNibble (paddedChunk v (chunkWidth s)) s.pfill.toNat s with
    | .error f => .error f
    | .ok s' => .ok (advanceCompile (chunkWidth s) (chunkValue v (chunkWidth s)) s')
  else .error .noBitsWanted

/-- `PATNIB v`, R144: state first, then value; a nibble of 16 or more discards the pattern (R146, 60_exceptions.md
R224). -/
def execPatnib (v : Nat) (s : State) : Result :=
  if s.pstate ≠ .loading then raise .state s
  else if 16 ≤ v then raise .malformed { s with pstate := .none }
  else andThen (consumeNibble v s) (respond .none 0)

end Sys2Proof.Machine
end

