-- ==== Sys2Proof/Machine/Matcher.lean ====
section
/-! DEFINITION. The exact matcher's command, 43_exact_matcher.md R191. -/

namespace Sys2Proof.Machine

/-- `MATCH off`, R191: the sum is exact; no window and no hash is used. -/
def execMatch (off : Nat) (s : State) : Result :=
  if s.pstate ≠ .ready then raise .state s
  else if s.hayBits < off + s.pbits.toNat then raise .range s
  else andThen (patternMatches s off) fun m => respond .value (BitVec.ofNat 24 m.toNat) s

end Sys2Proof.Machine
end

