-- ==== Sys2Proof/Machine/Scanner.lean ====
section
/-! DEFINITION. The rolling-hash scanner's commands, 42_rolling_hash_scanner.md R160 to R173. -/

namespace Sys2Proof.Machine

/-- `HAYLEN bytes`, R160. -/
def execHaylen (bytes : Nat) (s : State) : Result :=
  if Config.maxHayBytes < bytes then raise .range s
  else respond .none 0 { forgetSearch s with hbytes := BitVec.ofNat 21 bytes }

/-- `WINIT`, R163. -/
def execWinit (s : State) : Result :=
  if s.pstate ≠ .ready then raise .state s
  else if s.hayBits < s.pbits.toNat then raise .range s
  else andThen (hashInit s) fun h =>
    respond .value ((openWindow h s).lhash.setWidth 24) (openWindow h s)

/-- `WCHECK`, R165: `VAL = {hash hit, match}`. -/
def execWcheck (s : State) : Result :=
  if noWindow s then raise .state s
  else andThen (checkWindow s) fun c =>
    respond .value (BitVec.ofNat 24 ((c.1.toNat <<< 1) ||| c.2.toNat)) s

/-- `WSHIFT`, R167. -/
def execWshift (s : State) : Result :=
  if noWindow s then raise .state s
  else if s.hayBits ≤ s.wend.toNat then raise .range s
  else andThen (shiftWindow s) fun t => respond .value (t.lhash.setWidth 24) t

/-- `SCAN` ends with `FOUND` at `off`, R168. -/
def scanFound (off : Nat) (s : State) : Result := respond .found (BitVec.ofNat 24 off) (setFound off s)

/-- `SCAN` ends with `NOT_FOUND`, R168. -/
def scanNotFound (s : State) : Result := respond .notFound 0 (setNotFound s)

/-- The loop of `SCAN` with `k = L - WEND` shifts left (R168, R171): check; end on a match; end at the last position;
else shift. It is the one loop over window positions, and `k` bounds it (R174). -/
def scanLoop : Nat → State → Result
  | 0, s => andThen (checkWindow s) fun c =>
      if c.2 then scanFound (s.wend.toNat - s.pbits.toNat) s else scanNotFound s
  | k + 1, s => andThen (checkWindow s) fun c =>
      if c.2 then scanFound (s.wend.toNat - s.pbits.toNat) s else andThen (shiftWindow s) (scanLoop k)

/-- `SCAN`, R168: the early exits of R169 leave the window registers alone. -/
def execScan (s : State) : Result :=
  if s.pstate ≠ .ready then raise .state s
  else if s.pbits.toNat = 0 then scanFound 0 s
  else if s.hayBits < s.pbits.toNat then scanNotFound s
  else andThen (hashInit s) fun h => scanLoop (s.hayBits - s.pbits.toNat) (openWindow h s)

end Sys2Proof.Machine
end

