-- ==== Sys2Proof/Machine/System.lean ====
section
/-! DEFINITION. The system commands, 44_system_commands.md R200 to R203. -/

namespace Sys2Proof.Machine

/-- `NOP`, R200. -/
def execNop (s : State) : Result := respond .none 0 s

/-- `RDREG r`, R201: a read has no side effect. -/
def execRdreg (r : Nat) (s : State) : Result :=
  match s.reg r with
  | some v => respond .value v s
  | none => raise .range s

/-- `CLRERR`, R202. -/
def execClrerr (s : State) : Result := respond .none 0 (clearError s)

/-- `SRESET`, R203. -/
def execSreset (s : State) : Result := respond .none 0 (resetRegisters s)

end Sys2Proof.Machine
end

