-- ==== Sys2Proof/Machine/Dispatch.lean ====
section
/-! DEFINITION. One arm for each command of the opcode map, 30_encoding.md R94. -/

namespace Sys2Proof.Machine

def exec (i : Instr) (s : State) : Host.Outcome State Fault Refusal :=
  match i with
  | .nop => Sys2Proof.Machine.execNop s
  | .haylen bytes => Sys2Proof.Machine.execHaylen bytes s
  | .patbegin nbits => Sys2Proof.Machine.execPatbegin nbits s
  | .patnib v => Sys2Proof.Machine.execPatnib v s
  | .scan => Sys2Proof.Machine.execScan s
  | .matchAt off => Sys2Proof.Machine.execMatch off s
  | .exth off cnt => Sys2Proof.Machine.execExth off cnt s
  | .extp off cnt => Sys2Proof.Machine.execExtp off cnt s
  | .rdreg r => Sys2Proof.Machine.execRdreg r s
  | .clrerr => Sys2Proof.Machine.execClrerr s
  | .sreset => Sys2Proof.Machine.execSreset s
  | .winit => Sys2Proof.Machine.execWinit s
  | .wcheck => Sys2Proof.Machine.execWcheck s
  | .wshift => Sys2Proof.Machine.execWshift s

end Sys2Proof.Machine
end

