-- ==== Sys2Proof/Machine/Port.lean ====
section
/-! DEFINITION. What each move of the host does to the machine: the command port (00_scope.md R4, R5), haystack memory
(R3, 20_memory.md R73), `rst` (70_reset_and_hazards.md R250). -/

namespace Sys2Proof.Machine

/-- The block gets one command word and answers it: a legal word runs, an illegal one raises `E_ILLEGAL`
(30_encoding.md R95, R96; 60_exceptions.md R222: decoding comes first). -/
def deliver (w : Word) (s : State) : Result :=
  match decode w with
  | .ok i => exec i s
  | .error _ => raise .illegal s

/-- The host writes one byte of haystack memory. The block cannot see it: no register changes (10_state.md R35,
R255). -/
def hostWrite (a : BitVec 21) (b : Byte) (s : State) : State := { s with hm := s.hm.put a.toNat b }

/-- Hardware reset between commands, R250: registers as R43, a response not yet taken is lost, both memories stay. -/
def hardReset (s : State) : State := { resetRegisters s with rsp := none }

/-- The byte address of pattern memory that a command word would write: an accepted `PATNIB` writes the byte at
`PFILL div 8`, nothing else writes (20_memory.md R71). -/
def pendingWrite (w : Word) (s : State) : Option Nat :=
  match decode w with
  | .ok (.patnib v) =>
    if s.pstate = .loading ∧ v < 16 ∧ s.pfill.toNat / 8 < s.patCap then some (s.pfill.toNat / 8) else none
  | _ => none

/-- Hardware reset while the command `w` runs: no response, registers as R43; the byte that a dropped `PATNIB` was about
to write holds any value (R250, U9, log 7). -/
def droppedCommand (w : Word) (s : State) : State :=
  match pendingWrite w s with
  | some a =>
    hardReset { s with pm := s.pm.put a (Config.droppedByte s.freeIx), freeIx := s.freeIx + 1 }
  | none => hardReset s

/-- One move of the host. -/
def hostMove (m : HostMove) (s : State) : Result :=
  match m with
  | .send w => deliver w s
  | .write a b => .next (hostWrite a b s)
  | .reset => .next (hardReset s)
  | .sendReset w => .next (droppedCommand w s)

/-- The directive `.HM b0 b1 …` as moves of the host, bytes at addresses 0, 1, 2, … (30_encoding.md R102). -/
def hmDirective (bytes : List Byte) : List HostMove :=
  (List.range bytes.length).zipWith (fun a b => .write (BitVec.ofNat 21 a) b) bytes

end Sys2Proof.Machine
end

