-- ==== Sys2Proof/Safety.lean ====
section
/-! DEFINITION. The words that claims are stated in: bit strings and their hash (41_pattern_compiler.md R141), where a
pattern occurs (42_rolling_hash_scanner.md R170), the invariants of 10_state.md R42, the error table of
60_exceptions.md R221, the register table of 10_state.md R21, and runs of commands. Nothing here is used by the
machine. -/

namespace Sys2Proof.Machine

/-! ### Bit strings -/

/-- The number whose binary digits are `f off, f (off + 1), …, f (off + m - 1)`, the first most significant
(40_bitfield_accessor.md R121). -/
def bitNumber (f : Nat → Nat) (off m : Nat) : Nat :=
  ∑ i ∈ Finset.range m, f (off + i) * 2 ^ (m - 1 - i)

/-- `H(f off … f (off + m - 1))`, R141. -/
def bitHash (f : Nat → Nat) (off m : Nat) : Nat := bitNumber f off m % 167

/-- The `n` haystack bits from `off` equal the pattern's bits, `n = PBITS` (R170, R190). -/
abbrev State.occursAt (s : State) (off : Nat) : Prop :=
  ∀ i < s.pbits.toNat, s.bitAt .haystack (off + i) = s.bitAt .pattern i

/-- `LHASH` is the hash of the window's bits (10_state.md R31). It holds only while haystack memory is as it was when
the window was initialised (93_implementation_defined.md U4), so it is no part of `Invariants`. -/
def State.windowFresh (s : State) : Prop :=
  s.wvalid = true →
    s.lhash.toNat = bitHash (s.bitAt .haystack) (s.wend.toNat - s.pbits.toNat) s.pbits.toNat

/-- Pattern bit `k` of a nibble sequence: bit `3 - (k mod 4)` of nibble number `k div 4`
(41_pattern_compiler.md R147). -/
def nibbleBit (ds : List Nat) (k : Nat) : Nat := ds.getD (k / 4) 0 / 2 ^ (3 - k % 4) % 2

/-! ### The invariants of R42 -/

/-- I1 to I11 of 10_state.md R42, with the range of the parameter (00_scope.md R7) and the canonical form of the two
memories, whose written bytes lie inside them. -/
structure Invariants (s : State) : Prop where
  /-- I1 -/
  hashes : s.phash.toNat < 167 ∧ s.pcan.toNat < 167 ∧ 1 ≤ s.rnum.toNat ∧ s.rnum.toNat ≤ 166 ∧ s.lhash.toNat < 167
  /-- I2 -/
  fill : s.pfill.toNat ≤ s.pbits.toNat ∧ ceil8 s.pbits.toNat ≤ s.patCap
  /-- I3 -/
  rnum : s.rnum.toNat = 84 * 2 ^ s.pfill.toNat % 167
  /-- I4 -/
  loading : s.pstate = .loading →
    1 ≤ s.pbits.toNat ∧ s.pfill.toNat < s.pbits.toNat ∧ s.pfill.toNat % 4 = 0 ∧ s.pcan = 0
  /-- I5 -/
  ready : s.pstate = .ready →
    s.pfill = s.pbits ∧ s.pcan.toNat = 167 - s.rnum.toNat ∧ 1 ≤ s.pcan.toNat ∧ s.pcan.toNat ≤ 166
  /-- I6 -/
  phash : s.pstate ≠ .none → s.phash.toNat = bitHash (s.bitAt .pattern) 0 s.pfill.toNat
  /-- I7 -/
  pad : s.pstate = .ready → ∀ k, k < 8 * ceil8 s.pbits.toNat → s.pbits.toNat ≤ k → s.bitAt .pattern k = 0
  /-- I8 -/
  window : s.wvalid = true → s.pstate = .ready ∧ s.pbits.toNat ≤ s.wend.toNat ∧ s.wend.toNat ≤ s.hayBits
  /-- I9 -/
  found : s.verdict = .found → s.pstate = .ready ∧ s.moff.toNat + s.pbits.toNat ≤ s.hayBits
  /-- I10 -/
  offset : s.verdict ≠ .found → s.moff = 0
  /-- I11 -/
  codes : s.hbytes.toNat ≤ 2 ^ 21 - 1 ∧ s.verdict.code ≠ 3 ∧ s.pstate.code ≠ 3 ∧ errValue s.err ≤ 5
  /-- R7 -/
  capacity : Config.patCapMin ≤ s.patCap ∧ s.patCap ≤ Config.patCapMax
  /-- The written bytes of pattern memory. -/
  patternForm : s.pm.wf = true ∧ ∀ c ∈ s.pm, c.1 < s.patCap
  /-- The written bytes of haystack memory; addresses have 21 bits (00_scope.md R9). -/
  haystackForm : s.hm.wf = true ∧ ∀ c ∈ s.hm, c.1 < 2 ^ 21

/-! ### Runs -/

/-- An instance of the machine after hardware reset: any capacity of R7, any host. -/
def State.powerUp (cap : Nat) (moves : List HostMove) : State :=
  { State.reset with patCap := cap, host := moves }

/-- The commands run one after another. -/
def runCommands : List Instr → State → Result
  | [], s => .next s
  | i :: is, s =>
    match exec i s with
    | .next t => runCommands is t
    | .fault f => .fault f
    | .refused r => .refused r

/-! ### Tables of the spec -/

/-- Every register holds its value of the table 10_state.md R43. -/
def State.holdsResetValues (t : State) : Prop :=
  t.reg 0 = some 0x424D01#24 ∧ t.pstate = .none ∧ t.wvalid = false ∧ t.err = none ∧ t.hbytes = 0 ∧ t.pbits = 0 ∧
  t.pfill = 0 ∧ t.phash = 0 ∧ t.pcan = 0 ∧ t.rnum = 84#8 ∧ t.lhash = 0 ∧ t.wend = 0 ∧ t.verdict = .none ∧ t.moff = 0

/-- The column `E_ILLEGAL` of the table of 60_exceptions.md R221. -/
def illegalWord (w : Word) : Bool :=
  decide (0xE ≤ opField w) ||
  decide (opField w ∈ [0x0, 0x4, 0x9, 0xA, 0xB, 0xC, 0xD] ∧ (bField w ≠ 0 ∨ aField w ≠ 0)) ||
  decide (opField w ∈ [0x1, 0x2, 0x3, 0x5, 0x8] ∧ bField w ≠ 0)

/-- The operands are the fields the opcode map names for them (30_encoding.md R94), given `A` and `B`. -/
def operandsAre (a b : Nat) : Instr → Prop
  | .haylen x | .patbegin x | .patnib x | .matchAt x | .rdreg x => x = a
  | .exth off cnt | .extp off cnt => off = a ∧ cnt = b
  | .nop | .scan | .clrerr | .sreset | .winit | .wcheck | .wshift => True

/-- The first error that applies to a legal command, in the order of 60_exceptions.md R222: the table of R221. -/
def errorOf (s : State) : Instr → Option Err
  | .nop | .clrerr | .sreset => none
  | .haylen a => if 2 ^ 21 - 1 < a then some .range else none
  | .patbegin a => if s.patCap < ceil8 a then some .capacity else none
  | .patnib a => if s.pstate ≠ .loading then some .state else if 16 ≤ a then some .malformed else none
  | .scan => if s.pstate ≠ .ready then some .state else none
  | .matchAt a =>
    if s.pstate ≠ .ready then some .state
    else if 8 * s.hbytes.toNat < a + s.pbits.toNat then some .range else none
  | .exth a b => if b < 1 ∨ 8 < b ∨ 8 * s.hbytes.toNat < a + b then some .range else none
  | .extp a b =>
    if s.pstate ≠ .ready then some .state
    else if b < 1 ∨ 8 < b ∨ s.pbits.toNat < a + b then some .range else none
  | .rdreg a => if 12 < a then some .range else none
  | .winit =>
    if s.pstate ≠ .ready then some .state
    else if 8 * s.hbytes.toNat < s.pbits.toNat then some .range else none
  | .wcheck => if s.pstate ≠ .ready ∨ s.wvalid = false then some .state else none
  | .wshift =>
    if s.pstate ≠ .ready ∨ s.wvalid = false then some .state
    else if 8 * s.hbytes.toNat ≤ s.wend.toNat then some .range else none

/-- The column "written by" of the register table 10_state.md R21, without `ERR`, which any failing command may
write; row 1 (`STATUS`) is that of R34 and R35. -/
def writesReg (i : Instr) (r : Nat) : Bool :=
  match i, r with
  | .sreset, 0 => false
  | .sreset, _ => true
  | .patbegin _, r => r ∈ [1, 4, 5, 6, 7, 8, 11, 12]
  | .patnib _, r => r ∈ [1, 5, 6, 7, 8]
  | .haylen _, r => r ∈ [1, 3, 11, 12]
  | .winit, r => r ∈ [1, 9, 10]
  | .wshift, r => r ∈ [9, 10]
  | .scan, r => r ∈ [1, 9, 10, 11, 12]
  | .clrerr, r => r = 2
  | _, _ => false

/-- The one command that may write pattern memory (20_memory.md R71). -/
def isPatnib : Instr → Bool
  | .patnib _ => true
  | _ => false

/-- The byte of pattern memory that a command writes if it succeeds: the byte at `PFILL div 8` for `PATNIB`, else none
(41_pattern_compiler.md R145, 20_memory.md R71). -/
def storedAt (s : State) : Instr → Option Nat
  | .patnib _ => some (s.pfill.toNat / 8)
  | _ => none

end Sys2Proof.Machine
end

