-- ==== Sys2Proof/Certificates/Slice0/Obligations.lean ====
section
/-! DEFINITION. The statements, in the order of OBLIGATIONS.json. A conclusion `.next { s with … }` says every field:
what is not named is unchanged. `afterError` and `responseWord` are spelled out by `RaiseWritesOnlyErr` and
`ResponseWordLayout`. -/

open Sys2Proof Sys2Proof.Machine

/-! ### Encoding and the port -/

/-- Decoding the encoding of a command that can be assembled gives it back, every operand at every value of its field
(30_encoding.md R91 to R94, R101). -/
def Obligations.DecodeOfEncodeIsTheCommand : Prop :=
  ∀ i : Instr, i.wellFormed = true →
    decode (encode i) = .ok i ∧ decodeTableWord 32 (encode i).toNat = some i

/-- A word that decodes is the encoding of what it decodes to: no bit of it is dropped (R96, R97). -/
def Obligations.EncodeOfDecodeIsTheWord : Prop :=
  ∀ (w : Word) (i : Instr), decode w = .ok i → i.wellFormed = true ∧ encode i = w

/-- The opcode map R94: a word is a command if and only if `w & mask = match`, and its operands are the fields named
there. -/
def Obligations.DecodeFollowsTheOpcodeMap : Prop :=
  ∀ w : Word,
    (∀ i : Instr, decode w = .ok i →
      w &&& i.matchMask.2 = i.matchMask.1 ∧ operandsAre (aField w) (bField w) i) ∧
    (∀ i : Instr, w &&& i.matchMask.2 = i.matchMask.1 → ∃ j, decode w = .ok j ∧ j.matchMask = i.matchMask)

/-- Reserved opcodes (R95) and non-zero unused fields (R96) raise `E_ILLEGAL`, which changes nothing but `ERR` beside
the response; the only word that is `NOP` is 0. -/
def Obligations.IllegalWordsRaiseIllegal : Prop :=
  ∀ (w : Word) (s : State),
    let err := Host.Outcome.next (φ := Fault) (ρ := Refusal)
      { s with err := if s.err = none then some .illegal else s.err, rsp := some 0x10000000#32 }
    (0xE ≤ opField w → deliver w s = err) ∧
    (opField w ∈ [0x0, 0x4, 0x9, 0xA, 0xB, 0xC, 0xD] → bField w ≠ 0 ∨ aField w ≠ 0 → deliver w s = err) ∧
    (opField w ∈ [0x1, 0x2, 0x3, 0x5, 0x8] → bField w ≠ 0 → deliver w s = err) ∧
    (opField w ∈ [0x6, 0x7] → ∃ i, decode w = .ok i) ∧
    (decode w = .ok .nop ↔ w = 0#32)

/-- A few words written out from R101 decode to what they stand for. -/
def Obligations.WrittenWordsDecode : Prop :=
  decode 0x00000000#32 = .ok .nop ∧ decode 0x68000004#32 = .ok (.exth 4 8) ∧
  decode 0x7100000B#32 = .ok (.extp 11 1) ∧ decode 0x20000009#32 = .ok (.patbegin 9) ∧
  decode 0x3000000A#32 = .ok (.patnib 10) ∧ decode 0x40000000#32 = .ok .scan ∧
  decode 0x50000002#32 = .ok (.matchAt 2) ∧ decode 0x101FFFFF#32 = .ok (.haylen 2097151) ∧
  decode 0x8000000C#32 = .ok (.rdreg 12) ∧ decode 0xD0000000#32 = .ok .wshift

/-- A step makes the host's next move; a delivered command word that decodes runs as `exec` of its command, an illegal
one raises `E_ILLEGAL`; with no move pending the block idles (00_scope.md R4, 60_exceptions.md R229). The queue of
moves is the model's (log 1, log 2). -/
def Obligations.StepRunsTheDeliveredCommand : Prop :=
  ∀ s : State,
    (s.host = [] → step s = .next s) ∧
    (∀ w rest i, s.host = .send w :: rest → decode w = .ok i → step s = exec i { s with host := rest }) ∧
    (∀ w rest e, s.host = .send w :: rest → decode w = .error e →
      step s = .next (afterError .illegal { s with host := rest })) ∧
    (∀ nbits w i, decodeTableWord nbits w = some i → step (s.withFetchWord nbits w) = exec i s)

/-- The layout of the response word, R98, with the codes of R99 and R100; a failing command's word is `ERRC << 28`. -/
def Obligations.ResponseWordLayout : Prop :=
  (∀ e k v, e < 16 → (responseWord e k v).toNat = e * 2 ^ 28 + k.code * 2 ^ 24 + v.toNat) ∧
  (∀ e, (errorWord e).toNat = e.code <<< 28) ∧
  Kind.none.code = 0 ∧ Kind.found.code = 1 ∧ Kind.notFound.code = 2 ∧ Kind.value.code = 3 ∧
  Err.illegal.code = 1 ∧ Err.malformed.code = 2 ∧ Err.state.code = 3 ∧ Err.range.code = 4 ∧ Err.capacity.code = 5

/-! ### The accessor -/

/-- `extract` is the bits at `off … off + c - 1` with the first one most significant, right-aligned
(40_bitfield_accessor.md R121), for every buffer that holds them. -/
def Obligations.ExtractIsTheBitString : Prop :=
  ∀ (s : State) (sp : Space) (off c : Nat), 1 ≤ c → c ≤ 8 → off + c ≤ s.spaceBits sp →
    (off + c - 1) / 8 < s.spaceBytes sp →
    ∃ v, extract s sp off c = .ok v ∧ v = ∑ i ∈ Finset.range c, s.bitAt sp (off + i) <<< (c - 1 - i) ∧
      v < 2 ^ c ∧ ∀ i < c, v >>> (c - 1 - i) % 2 = s.bitAt sp (off + i)

/-- The laws of R124: range, single bit, whole byte, split, and that the result depends only on the bits extracted,
whatever the buffer and the alignment. -/
def Obligations.ExtractLaws : Prop :=
  ∀ (s : State) (sp : Space),
    (∀ off c v, extract s sp off c = .ok v → v < 2 ^ c) ∧
    (∀ k v, extract s sp k 1 = .ok v → v = s.bitAt sp k) ∧
    (∀ q v, extract s sp (8 * q) 8 = .ok v → v = (s.byteAt sp q).toNat) ∧
    (∀ off a b v u, 1 ≤ a → 1 ≤ b → a + b ≤ 8 → extract s sp off a = .ok v → extract s sp (off + a) b = .ok u →
      extract s sp off (a + b) = .ok ((v <<< b) ||| u)) ∧
    (∀ (t : State) (sp' : Space) o1 o2 c v u, extract s sp o1 c = .ok v → extract t sp' o2 c = .ok u →
      (∀ i < c, s.bitAt sp (o1 + i) = t.bitAt sp' (o2 + i)) → v = u)

/-- Which bytes an extraction reads (R123): it answers exactly where byte `q` exists and, if and only if the field
reaches into it, byte `q + 1`; and no other byte has any effect. -/
def Obligations.ExtractReadsOnlyItsBytes : Prop :=
  ∀ (s : State) (sp : Space) (off c : Nat), 1 ≤ c → c ≤ 8 → off + c ≤ s.spaceBits sp →
    ((∃ v, extract s sp off c = .ok v) ↔
      off / 8 < s.spaceBytes sp ∧ (8 < off % 8 + c → off / 8 + 1 < s.spaceBytes sp)) ∧
    (∀ t : State, t.spaceBits sp = s.spaceBits sp → t.spaceBytes sp = s.spaceBytes sp →
      t.byteAt sp (off / 8) = s.byteAt sp (off / 8) →
      (8 < off % 8 + c → t.byteAt sp (off / 8 + 1) = s.byteAt sp (off / 8 + 1)) →
      extract t sp off c = extract s sp off c)

/-- `EXTH off, cnt` (R126), in every state: the range error, or the bits. -/
def Obligations.ExthReturnsTheBits : Prop :=
  ∀ (off cnt : Nat) (s : State),
    exec (.exth off cnt) s =
      if cnt < 1 ∨ 8 < cnt ∨ 8 * s.hbytes.toNat < off + cnt then .next (afterError .range s)
      else .next { s with
        rsp := some (responseWord 0 .value (BitVec.ofNat 24 (bitNumber (s.bitAt .haystack) off cnt))) }

/-- `EXTP off, cnt` (R127): state first, then range, else the bits. The pattern fits pattern memory (10_state.md R42
I2). -/
def Obligations.ExtpReturnsTheBits : Prop :=
  ∀ (off cnt : Nat) (s : State), ceil8 s.pbits.toNat ≤ s.patCap →
    exec (.extp off cnt) s =
      if s.pstate ≠ .ready then .next (afterError .state s)
      else if cnt < 1 ∨ 8 < cnt ∨ s.pbits.toNat < off + cnt then .next (afterError .range s)
      else .next { s with
        rsp := some (responseWord 0 .value (BitVec.ofNat 24 (bitNumber (s.bitAt .pattern) off cnt))) }

/-! ### The hash and the compiler -/

/-- Folding a chunk extends the hash of a bit string by the chunk's bits; one bit is the case `w = 1`
(41_pattern_compiler.md R141). -/
def Obligations.FoldOfAChunkIsTheHash : Prop :=
  ∀ (f : Nat → Nat) (off m w : Nat),
    bitHash f off 0 = 0 ∧
    fold (bitHash f off m) 1 (f (off + m)) = bitHash f off (m + 1) ∧
    fold (bitHash f off m) w (bitNumber f (off + m) w) = bitHash f off (m + w)

/-- The `rnum` updates over chunks whose widths sum to `m` give `84 * 2^m mod 167`, for `m ≥ 1` `2^(m-1) mod 167`
(R142). -/
def Obligations.RnumOverChunks : Prop :=
  (∀ r w, rnumStep r w = r * 2 ^ w % 167) ∧
  ∀ ws : List Nat,
    ws.foldl rnumStep 84 = 84 * 2 ^ ws.sum % 167 ∧ (1 ≤ ws.sum → ws.foldl rnumStep 84 = 2 ^ (ws.sum - 1) % 167)

/-- `PATBEGIN nbits` (R143), in every state. -/
def Obligations.PatbeginOpensACompile : Prop :=
  ∀ (n : Nat) (s : State),
    exec (.patbegin n) s =
      if s.patCap < (n + 7) / 8 then .next (afterError .capacity s)
      else .next { s with
        pbits := BitVec.ofNat 24 n, pfill := 0, phash := 0, rnum := 84#8, wvalid := false, verdict := .none, moff := 0,
        pcan := if n = 0 then 83#8 else 0, pstate := if n = 0 then .ready else .loading,
        rsp := some 0x00000000#32 }

/-- `PATNIB v` (R144, R145, R146): not loading is `E_STATE`; a value of 16 or more discards the pattern; else the top
`w` bits of the nibble are folded and stored in the byte at `PFILL div 8`, and on the last chunk the pattern is ready.
While loading, a bit is wanted and the byte exists (10_state.md R42 I2, I4). -/
def Obligations.PatnibConsumesANibble : Prop :=
  ∀ (v : Nat) (s : State),
    (s.pstate ≠ .loading → exec (.patnib v) s = .next (afterError .state s)) ∧
    (s.pstate = .loading → 16 ≤ v →
      exec (.patnib v) s = .next (afterError .malformed { s with pstate := .none })) ∧
    (s.pstate = .loading → v < 16 → s.pfill.toNat < s.pbits.toNat → s.pfill.toNat / 8 < s.patCap →
      let w := min 4 (s.pbits.toNat - s.pfill.toNat)
      let cv := v / 2 ^ (4 - w)
      let i := s.pfill.toNat / 8
      ∃ t, exec (.patnib v) s = .next t ∧
        t.phash.toNat = (s.phash.toNat * 2 ^ w + cv) % 167 ∧
        t.rnum.toNat = s.rnum.toNat * 2 ^ w % 167 ∧
        t.pfill.toNat = s.pfill.toNat + w ∧
        (if s.pfill.toNat + w = s.pbits.toNat then t.pcan.toNat = 167 - t.rnum.toNat ∧ t.pstate = .ready
          else t.pcan = s.pcan ∧ t.pstate = .loading) ∧
        t.byteAt .pattern i =
          (if s.pfill.toNat % 8 = 0 then BitVec.ofNat 8 (cv * 2 ^ (4 - w) * 16)
            else (s.byteAt .pattern i &&& 0xF0#8) ||| BitVec.ofNat 8 (cv * 2 ^ (4 - w))) ∧
        (∀ a, a ≠ i → t.byteAt .pattern a = s.byteAt .pattern a) ∧
        t = { s with
          phash := t.phash, rnum := t.rnum, pfill := t.pfill, pcan := t.pcan, pstate := t.pstate, pm := t.pm,
          rsp := some 0x00000000#32 })

/-- A whole compile (R147, R148): `PATBEGIN n` and `ceil(n / 4)` nibbles, from any state of an instance that has room,
store the pattern's bits with zero pad bits and leave its hash and cancel term; the bytes above are untouched. -/
def Obligations.PatloadCompilesThePattern : Prop :=
  ∀ (s : State) (n : Nat) (ds : List Nat), n < 2 ^ 24 → ceil8 n ≤ s.patCap → ds.length = (n + 3) / 4 →
    (∀ d ∈ ds, d < 16) →
    ∃ t, runCommands (.patbegin n :: ds.map .patnib) s = .next t ∧
      t.pstate = .ready ∧ t.pbits.toNat = n ∧ t.pfill.toNat = n ∧
      (∀ k < n, t.bitAt .pattern k = nibbleBit ds k) ∧
      (∀ k, n ≤ k → k < 8 * ceil8 n → t.bitAt .pattern k = 0) ∧
      (∀ a, ceil8 n ≤ a → t.byteAt .pattern a = s.byteAt .pattern a) ∧
      t.phash.toNat = bitHash (nibbleBit ds) 0 n ∧
      (1 ≤ n → t.rnum.toNat = 2 ^ (n - 1) % 167) ∧ (n = 0 → t.rnum.toNat = 84) ∧
      (∀ m, 1 ≤ m → 1 ≤ n → m % 83 = n % 83 → t.pcan.toNat = 167 - 2 ^ (m - 1) % 167) ∧
      t.pcan.toNat = 167 - t.rnum.toNat ∧ (t.pcan.toNat + t.rnum.toNat) % 167 = 0 ∧
      1 ≤ t.pcan.toNat ∧ t.pcan.toNat ≤ 166

/-- Too few nibbles leave the compile open at `PFILL = 4 * (number of nibbles)`, with the hash of the bits so far
(R148). -/
def Obligations.ShortCompileStaysLoading : Prop :=
  ∀ (s : State) (n : Nat) (ds : List Nat), n < 2 ^ 24 → ceil8 n ≤ s.patCap → ds.length < (n + 3) / 4 →
    (∀ d ∈ ds, d < 16) →
    ∃ t, runCommands (.patbegin n :: ds.map .patnib) s = .next t ∧
      t.pstate = .loading ∧ t.pfill.toNat = 4 * ds.length ∧ t.pcan = 0 ∧
      t.phash.toNat = bitHash (nibbleBit ds) 0 (4 * ds.length)

/-! ### The scanner and the matcher -/

/-- `HAYLEN bytes` (42_rolling_hash_scanner.md R160), in every state. -/
def Obligations.HaylenDeclaresTheLength : Prop :=
  ∀ (n : Nat) (s : State),
    exec (.haylen n) s =
      if 2 ^ 21 - 1 < n then .next (afterError .range s)
      else .next { s with
        hbytes := BitVec.ofNat 21 n, wvalid := false, verdict := .none, moff := 0, rsp := some 0x00000000#32 }

/-- `WINIT` (R163, R162), in every state: the live hash is the hash of the first `PBITS` haystack bits. -/
def Obligations.WinitHashesTheFirstWindow : Prop :=
  ∀ s : State,
    exec .winit s =
      if s.pstate ≠ .ready then .next (afterError .state s)
      else if 8 * s.hbytes.toNat < s.pbits.toNat then .next (afterError .range s)
      else .next { s with
        lhash := BitVec.ofNat 8 (bitHash (s.bitAt .haystack) 0 s.pbits.toNat), wend := s.pbits, wvalid := true,
        rsp := some (responseWord 0 .value (BitVec.ofNat 24 (bitHash (s.bitAt .haystack) 0 s.pbits.toNat))) }

/-- `WCHECK` (R165, R164): 0 without a hash hit, 2 on a hit whose bits differ, 3 on a match; nothing else changes. A
valid window lies inside the haystack (10_state.md R42 I8). -/
def Obligations.WcheckReportsHitAndMatch : Prop :=
  ∀ s : State,
    (s.pstate ≠ .ready ∨ s.wvalid = false → exec .wcheck s = .next (afterError .state s)) ∧
    (s.pstate = .ready → s.wvalid = true → s.pbits.toNat ≤ s.wend.toNat → s.wend.toNat ≤ 8 * s.hbytes.toNat →
      ceil8 s.pbits.toNat ≤ s.patCap →
      exec .wcheck s = .next { s with
        rsp := some (responseWord 0 .value
          (if s.lhash = s.phash then (if s.occursAt (s.wend.toNat - s.pbits.toNat) then 3#24 else 2#24) else 0#24)) })

/-- `WSHIFT` (R167, R166): cancel the leaving bit, then fold the entering one; at the last position `E_RANGE`. -/
def Obligations.WshiftCancelsThenFolds : Prop :=
  ∀ s : State,
    (s.pstate ≠ .ready ∨ s.wvalid = false → exec .wshift s = .next (afterError .state s)) ∧
    (s.pstate = .ready → s.wvalid = true → s.pbits.toNat ≤ s.wend.toNat →
      exec .wshift s =
        if 8 * s.hbytes.toNat ≤ s.wend.toNat then .next (afterError .range s)
        else
          let h := if s.bitAt .haystack (s.wend.toNat - s.pbits.toNat) = 1
            then (s.lhash.toNat + s.pcan.toNat) % 167 else s.lhash.toNat
          let h' := (2 * h + s.bitAt .haystack s.wend.toNat) % 167
          .next { s with
            lhash := BitVec.ofNat 8 h', wend := s.wend + 1#24,
            rsp := some (responseWord 0 .value (BitVec.ofNat 24 h')) })

/-- The window-hash invariant (R175): if the live hash is the hash of the window, after a shift it is the hash of the
next window. -/
def Obligations.ShiftKeepsTheWindowHash : Prop :=
  ∀ s : State, Invariants s → s.wvalid = true → s.windowFresh → s.wend.toNat < s.hayBits →
    ∃ t, exec .wshift s = .next t ∧ t.wend.toNat = s.wend.toNat + 1 ∧
      t.lhash.toNat = bitHash (s.bitAt .haystack) (s.wend.toNat - s.pbits.toNat + 1) s.pbits.toNat

/-- The window walked by hand (R161, R163, R167): after `WINIT` and `k` shifts it starts at `k`, and the live hash is
the hash of its bits. -/
def Obligations.WindowWalk : Prop :=
  ∀ (s : State) (k : Nat), Invariants s → s.pstate = .ready → s.pbits.toNat + k ≤ s.hayBits →
    ∃ t, runCommands (.winit :: List.replicate k .wshift) s = .next t ∧
      t.wvalid = true ∧ t.wend.toNat = s.pbits.toNat + k ∧
      t.lhash.toNat = bitHash (s.bitAt .haystack) k s.pbits.toNat

/-- What `SCAN` returns, stated without the algorithm (R170): the smallest offset at which the pattern's bits occur,
or not found; the empty pattern occurs at 0. -/
def Obligations.ScanFindsTheFirstMatch : Prop :=
  ∀ s : State, Invariants s → s.pstate = .ready →
    ∃ t, exec .scan s = .next t ∧
      (s.pbits = 0 → t.rsp = some 0x01000000#32 ∧ t.verdict = .found ∧ t.moff = 0) ∧
      (∀ off, off + s.pbits.toNat ≤ 8 * s.hbytes.toNat → s.occursAt off → (∀ o < off, ¬ s.occursAt o) →
        t.rsp = some (responseWord 0 .found (BitVec.ofNat 24 off)) ∧ t.verdict = .found ∧ t.moff.toNat = off) ∧
      (s.pbits ≠ 0 → (∀ off, off + s.pbits.toNat ≤ 8 * s.hbytes.toNat → ¬ s.occursAt off) →
        t.rsp = some 0x02000000#32 ∧ t.verdict = .notFound ∧ t.moff = 0)

/-- The registers after `SCAN` (R173): found at `o`, the window ends at `o + n` and `LHASH = PHASH`; not found, it is
the last window; after an early exit the window registers are as before. Nothing else changes. -/
def Obligations.ScanLeavesTheWindow : Prop :=
  ∀ s t : State, Invariants s → s.pstate = .ready → exec .scan s = .next t →
    (s.pbits = 0 ∨ s.hayBits < s.pbits.toNat → t.lhash = s.lhash ∧ t.wend = s.wend ∧ t.wvalid = s.wvalid) ∧
    (s.pbits ≠ 0 → s.pbits.toNat ≤ s.hayBits →
      t.wvalid = true ∧
      (t.verdict = .found → t.wend.toNat = t.moff.toNat + s.pbits.toNat ∧ t.lhash = s.phash) ∧
      (t.verdict = .notFound → t.wend.toNat = s.hayBits ∧
        t.lhash.toNat = bitHash (s.bitAt .haystack) (s.hayBits - s.pbits.toNat) s.pbits.toNat)) ∧
    t = { s with
      verdict := t.verdict, moff := t.moff, lhash := t.lhash, wend := t.wend, wvalid := t.wvalid, rsp := t.rsp }

/-- Reuse (70_reset_and_hazards.md R253): a repeated `SCAN` leaves response and state as they are; a `SCAN` depends
only on the pattern, `HBYTES` and the haystack bytes; `HAYLEN` does not disturb the pattern nor `PATBEGIN` the
haystack length. -/
def Obligations.ScanIsRepeatable : Prop :=
  (∀ s t : State, exec .scan s = .next t → exec .scan t = .next t) ∧
  (∀ s s' t : State, s'.pstate = s.pstate → s'.pbits = s.pbits → s'.phash = s.phash → s'.pcan = s.pcan →
    s'.pm = s.pm → s'.patCap = s.patCap → s'.hbytes = s.hbytes → s'.hm = s.hm → exec .scan s = .next t →
    ∃ t', exec .scan s' = .next t' ∧ t'.rsp = t.rsp ∧
      (s.pstate = .ready → t'.verdict = t.verdict ∧ t'.moff = t.moff)) ∧
  (∀ n (s t : State), exec (.haylen n) s = .next t →
    t.pstate = s.pstate ∧ t.pbits = s.pbits ∧ t.phash = s.phash ∧ t.pcan = s.pcan ∧ t.pm = s.pm) ∧
  (∀ n (s t : State), exec (.patbegin n) s = .next t → t.hbytes = s.hbytes ∧ t.hm = s.hm)

/-- The matcher is the only thing that decides a match (43_exact_matcher.md R192): in every state, whatever `PHASH`,
`PCAN` and `LHASH` hold, a found match is one. -/
def Obligations.FoundIsNeverFalse : Prop :=
  (∀ s t : State, s.pstate = .ready → exec .scan s = .next t → t.verdict = .found → s.occursAt t.moff.toNat) ∧
  (∀ s t : State, exec .wcheck s = .next t → t.rsp = some (responseWord 0 .value 3#24) →
    s.occursAt (s.wend.toNat - s.pbits.toNat))

/-- Equal bits give equal hashes, so the hash test never rejects a true match; the converse fails, as the 8-bit
strings of 0x00 and 0xA7 show (42_rolling_hash_scanner.md R176). -/
def Obligations.EqualBitsGiveEqualHashes : Prop :=
  (∀ s : State, Invariants s → s.wvalid = true → s.windowFresh → s.occursAt (s.wend.toNat - s.pbits.toNat) →
    s.lhash = s.phash) ∧
  bitHash (fun k => bitOf 0x00#8 k) 0 8 = bitHash (fun k => bitOf 0xA7#8 k) 0 8

/-- `MATCH off` (R191, R190): 1 exactly when the haystack's bits at `off` equal the pattern's; nothing else changes.
The pattern fits pattern memory (10_state.md R42 I2). -/
def Obligations.MatchComparesTheBits : Prop :=
  ∀ (off : Nat) (s : State), ceil8 s.pbits.toNat ≤ s.patCap →
    exec (.matchAt off) s =
      if s.pstate ≠ .ready then .next (afterError .state s)
      else if 8 * s.hbytes.toNat < off + s.pbits.toNat then .next (afterError .range s)
      else .next { s with rsp := some (responseWord 0 .value (if s.occursAt off then 1#24 else 0#24)) }

/-- No result depends on the pad bits or on pattern memory beyond the pattern (20_memory.md R70, 90_conflicts.md C3,
93_implementation_defined.md U3, U5): with only such bits changed, every command but `PATNIB` ends the same. -/
def Obligations.PadBitsNeverMatter : Prop :=
  ∀ (i : Instr) (s t : State) (pm : Memory), isPatnib i = false →
    (∀ k < s.pbits.toNat, ({ s with pm := pm } : State).bitAt .pattern k = s.bitAt .pattern k) →
    exec i s = .next t → exec i { s with pm := pm } = .next { t with pm := pm }

/-! ### System commands and errors -/

/-- `NOP` (44_system_commands.md R200). -/
def Obligations.NopDoesNothing : Prop :=
  encode .nop = 0x00000000#32 ∧ ∀ s : State, exec .nop s = .next { s with rsp := some 0x00000000#32 }

/-- `RDREG r` (R201) reads every register of 10_state.md R21, and has no other effect. -/
def Obligations.RdregReadsTheRegister : Prop :=
  ∀ s : State,
    let reads (r v : Nat) := exec (.rdreg r) s =
      .next { s with rsp := some (responseWord 0 .value (BitVec.ofNat 24 v)) }
    reads 0 0x424D01 ∧
    reads 1 (4 * s.wvalid.toNat + match s.pstate with | .none => 0 | .loading => 1 | .ready => 2) ∧
    reads 2 (match s.err with
      | none => 0 | some .illegal => 1 | some .malformed => 2 | some .state => 3 | some .range => 4
      | some .capacity => 5) ∧
    reads 3 s.hbytes.toNat ∧ reads 4 s.pbits.toNat ∧ reads 5 s.pfill.toNat ∧ reads 6 s.phash.toNat ∧
    reads 7 s.pcan.toNat ∧ reads 8 s.rnum.toNat ∧ reads 9 s.lhash.toNat ∧ reads 10 s.wend.toNat ∧
    reads 11 (match s.verdict with | .none => 0 | .found => 1 | .notFound => 2) ∧ reads 12 s.moff.toNat ∧
    ∀ r, 12 < r → exec (.rdreg r) s = .next (afterError .range s)

/-- `CLRERR` (R202). -/
def Obligations.ClrerrClearsErr : Prop :=
  encode .clrerr = 0x90000000#32 ∧
  ∀ s : State, exec .clrerr s = .next { s with err := none, rsp := some 0x00000000#32 }

/-- `SRESET` (R203): the registers as after hardware reset, both memories as they were. -/
def Obligations.SresetRestoresTheRegisters : Prop :=
  encode .sreset = 0xA0000000#32 ∧
  ∀ s : State, exec .sreset s = .next { State.reset with
    pm := s.pm, hm := s.hm, patCap := s.patCap, host := s.host, freeIx := s.freeIx, rsp := some 0x00000000#32 }

/-- What `raise E_X` does (60_exceptions.md R223): `ERR` takes the code if it held none, the response is the code. -/
def Obligations.RaiseWritesOnlyErr : Prop :=
  ∀ (e : Err) (s : State),
    raise e s = .next { s with
      err := if s.err = none then some e else s.err, rsp := some (BitVec.ofNat 32 (e.code <<< 28)) }

/-- Which command raises which error, and the first that applies is reported (R221, R222); without one the response
has `ERRC = 0` and `ERR` stays, but for the two commands that clear it. -/
def Obligations.CommandsFollowTheErrorTable : Prop :=
  ∀ (w : Word) (s : State), Invariants s →
    (illegalWord w = true → deliver w s = .next (afterError .illegal s)) ∧
    (illegalWord w = false → ∃ i, decode w = .ok i ∧
      (∀ e, errorOf s i = some e →
        deliver w s = .next (afterError e (if e = .malformed then { s with pstate := .none } else s))) ∧
      (errorOf s i = none → ∃ t r, deliver w s = .next t ∧ t.rsp = some r ∧ r.extractLsb' 28 4 = 0#4 ∧
        (t.err = s.err ∨ i = .clrerr ∨ i = .sreset)))

/-- `ERR` (10_state.md R24): a code 0 to 5; a failing command writes its code if `ERR` holds none, no other command
writes one; only `CLRERR`, `SRESET` and hardware reset clear it; and what it holds blocks nothing: every command but
the one that reads it does the same whatever it holds. -/
def Obligations.ErrIsStickyAndBlocksNothing : Prop :=
  ∀ (i : Instr) (s t : State), exec i s = .next t →
    (errValue s.err ≤ 5 ∧ (errValue s.err = 0 ↔ s.err = none)) ∧
    (∀ e, t.rsp = some (errorWord e) → t.err = if s.err = none then some e else s.err) ∧
    (t.err ≠ s.err → (∃ e, t.rsp = some (errorWord e)) ∨ i = .clrerr ∨ i = .sreset) ∧
    ((i = .clrerr ∨ i = .sreset → t.err = none) ∧ (hardReset s).err = none) ∧
    (i ≠ .rdreg 2 → ∀ x, ∃ y, exec i { s with err := x } = .next { t with err := y })

/-! ### Frames and transitions -/

/-- A register changes only by the commands that 10_state.md R21 names for it, `ERR` also by any failing command. -/
def Obligations.RegistersWrittenOnlyByTheirCommands : Prop :=
  ∀ (i : Instr) (s t : State) (r : Nat), exec i s = .next t → t.reg r ≠ s.reg r →
    writesReg i r = true ∨ (r = 2 ∧ ∃ e, t.rsp = some (errorWord e))

/-- No command writes haystack memory; `PATNIB` alone writes pattern memory, the one byte at `PFILL div 8` (20_memory.md
R69, R71). That `patCap`, `host` and `freeIx` stay is no rule of the spec: they are the model's own fields (log 4, log 1,
log 7). -/
def Obligations.CommandsWriteOneByteAtMost : Prop :=
  ∀ (i : Instr) (s t : State), exec i s = .next t →
    (∀ a, t.byteAt .haystack a = s.byteAt .haystack a) ∧ t.hm = s.hm ∧
    (∀ a, storedAt s i ≠ some a → t.byteAt .pattern a = s.byteAt .pattern a) ∧
    (isPatnib i = false → t.pm = s.pm) ∧
    t.patCap = s.patCap ∧ t.host = s.host ∧ t.freeIx = s.freeIx

/-- A compiled pattern is immutable (70_reset_and_hazards.md R256): only a new compile, or a reset of the registers,
alters it. -/
def Obligations.ReadyPatternIsImmutable : Prop :=
  ∀ (i : Instr) (s t : State), s.pstate = .ready → exec i s = .next t → (∀ n, i ≠ .patbegin n) → i ≠ .sreset →
    t.pstate = .ready ∧ t.pbits = s.pbits ∧ t.pfill = s.pfill ∧ t.phash = s.phash ∧ t.pcan = s.pcan ∧ t.rnum = s.rnum ∧
      t.pm = s.pm

/-- The transitions of `PSTATE` (10_state.md R34), with `PATBEGIN` refused for capacity leaving it
(41_pattern_compiler.md R143). -/
def Obligations.PstateTransitions : Prop :=
  ∀ (i : Instr) (s t : State), exec i s = .next t →
    t.pstate = match i with
      | .patbegin n => if s.patCap < ceil8 n then s.pstate else if n = 0 then .ready else .loading
      | .patnib v =>
        if s.pstate ≠ .loading then s.pstate
        else if 16 ≤ v then .none
        else if s.pbits.toNat ≤ s.pfill.toNat + 4 then .ready else .loading
      | .sreset => .none
      | _ => s.pstate

/-- The transitions of `WVALID` (10_state.md R35): set by `WINIT` and by a `SCAN` that reaches its hash
initialisation, cleared by `HAYLEN`, `PATBEGIN` and `SRESET`, kept by every other command and by every command that
fails. -/
def Obligations.WvalidTransitions : Prop :=
  ∀ (i : Instr) (s t : State), exec i s = .next t →
    t.wvalid = match i with
      | .haylen n => if 2 ^ 21 - 1 < n then s.wvalid else false
      | .patbegin n => if s.patCap < ceil8 n then s.wvalid else false
      | .sreset => false
      | .winit => if s.pstate = .ready ∧ s.pbits.toNat ≤ s.hayBits then true else s.wvalid
      | .scan =>
        if s.pstate = .ready ∧ s.pbits ≠ 0 ∧ s.pbits.toNat ≤ s.hayBits then true else s.wvalid
      | _ => s.wvalid

/-! ### Reset and the host -/

/-- Hardware reset between commands (70_reset_and_hazards.md R250, 10_state.md R43): every register at its reset
value, a response not taken is lost, both memories stay. The move and the queue are the model's (log 1, log 18). -/
def Obligations.HardResetRestoresTheRegisters : Prop :=
  ∀ (s : State) rest, s.host = .reset :: rest →
    step s = .next { State.reset with
      pm := s.pm, hm := s.hm, patCap := s.patCap, host := rest, freeIx := s.freeIx }

/-- The reset values (10_state.md R43, 70_reset_and_hazards.md R251): after power-up of every instance, after hardware
reset and after `SRESET`; neither reset touches pattern memory. The clause with `Config.pmUnwritten` is the model's form of
R43's "unspecified at power-up": a free value for each address (log 5). -/
def Obligations.ResetValues : Prop :=
  (∀ cap moves, (State.powerUp cap moves).holdsResetValues ∧
    ∀ a, (State.powerUp cap moves).byteAt .pattern a = Config.pmUnwritten a) ∧
  (∀ s : State, (hardReset s).holdsResetValues ∧ (hardReset s).pm = s.pm) ∧
  (∀ s t : State, exec .sreset s = .next t → t.holdsResetValues ∧ t.pm = s.pm)

/-- Hardware reset while a command runs: no response, the registers at their reset values, haystack memory as it was
(70_reset_and_hazards.md R250). The move `sendReset` is the model's (log 1). 93_implementation_defined.md U9 says "any
value" for pattern memory; that only the byte a dropped `PATNIB` was about to write may differ is the model's own narrower
reading, DEDUCED from 20_memory.md R71 and R250 (log 7, unsafe). What that byte holds is free (log 7). -/
def Obligations.DroppedCommandLeavesResetRegisters : Prop :=
  ∀ (s : State) w rest, s.host = .sendReset w :: rest →
    ∃ t, step s = .next t ∧
      t = { State.reset with pm := t.pm, hm := s.hm, patCap := s.patCap, host := rest, freeIx := t.freeIx } ∧
      (∀ a, t.byteAt .pattern a ≠ s.byteAt .pattern a →
        a = s.pfill.toNat / 8 ∧ s.pstate = .loading ∧ ∃ v, v < 16 ∧ decode w = .ok (.patnib v))

/-- The host writes one haystack byte; the block cannot see it (20_memory.md R73, 70_reset_and_hazards.md R255). The move
is the model's (log 1, log 13). -/
def Obligations.HostWriteChangesOneHaystackByte : Prop :=
  ∀ (s : State) a b rest, s.host = .write a b :: rest →
    ∃ t, step s = .next t ∧ t = { s with hm := t.hm, host := rest } ∧
      ∀ x, t.byteAt .haystack x = if x = a.toNat then b else s.byteAt .haystack x

/-! ### Invariants -/

/-- The invariants hold after reset of every instance of the parameter's range, whatever the host will do
(10_state.md R42, R43). The capacity 512 of `State.reset` is the model's choice (log 4). -/
def Obligations.InvAfterReset : Prop :=
  Invariants State.reset ∧
    ∀ cap moves, Config.patCapMin ≤ cap → cap ≤ Config.patCapMax → Invariants (State.powerUp cap moves)

/-- Every step keeps the invariants, from every state that has them, whatever the host does (10_state.md R42). -/
def Obligations.StepKeepsInv : Prop := ∀ s t : State, Invariants s → step s = .next t → Invariants t

/-- In every state of every run of every instance the invariants hold (10_state.md R42), whatever the host does. The
host's moves are the model's (log 1). -/
def Obligations.InvOnEveryRun : Prop :=
  ∀ (cap : Nat) (moves : List HostMove) (k : Nat) (t : State),
    Config.patCapMin ≤ cap → cap ≤ Config.patCapMax →
    Host.Core.run core k (State.powerUp cap moves) = .next t → Invariants t

/-- No step of a state that has the invariants stops: every read is inside its memory (20_memory.md R70) and every
call of the accessor inside its domain (40_bitfield_accessor.md R125). -/
def Obligations.StepNeverStops : Prop := ∀ s : State, Invariants s → ∃ t, step s = .next t

/-- Every one of the 2^32 words has a response in every state that has the invariants (00_scope.md R5), and the
response is one of those that 30_encoding.md R99 and R100 produce. -/
def Obligations.EveryWordGetsAResponse : Prop :=
  ∀ (w : Word) (s : State), Invariants s →
    ∃ t r, deliver w s = .next t ∧ t.rsp = some r ∧
      ((∃ e : Err, r = errorWord e) ∨ ∃ k val, r = responseWord 0 k val ∧ (k = .none ∨ k = .notFound → val = 0))

/-- Every command keeps the live hash the hash of the window (10_state.md R31, 42_rolling_hash_scanner.md R175). A
write of the host between commands may break it (70_reset_and_hazards.md R255), so this is a claim about commands. -/
def Obligations.CommandsKeepTheWindowHash : Prop :=
  ∀ (w : Word) (s t : State), Invariants s → s.windowFresh → deliver w s = .next t → t.windowFresh
end

