-- ==== Sys2Proof/Laws/Bits.lean ====
section
/-! SUPPORT. Arithmetic of bit strings: the number of a string grows by doubling, splits at any point, and depends only
on its bits. -/

namespace Sys2Proof.Machine

theorem bitOf_le (b : Byte) (r : Nat) : bitOf b r ≤ 1 := by
  unfold bitOf
  rw [Nat.and_one_is_mod]
  omega

theorem bitAt_le (s : State) (sp : Space) (k : Nat) : s.bitAt sp k ≤ 1 := bitOf_le _ _

theorem bitNumber_zero (f : Nat → Nat) (off : Nat) : bitNumber f off 0 = 0 := rfl

/-- One more bit doubles the number and adds the bit. -/
theorem bitNumber_succ (f : Nat → Nat) (off m : Nat) :
    bitNumber f off (m + 1) = 2 * bitNumber f off m + f (off + m) := by
  unfold bitNumber
  rw [Finset.sum_range_succ, Finset.mul_sum]
  congr 1
  · refine Finset.sum_congr rfl fun i hi => ?_
    have hi := Finset.mem_range.mp hi
    rw [show m + 1 - 1 - i = (m - 1 - i) + 1 by omega, pow_succ]
    ring
  · simp

/-- A string splits into a leading and a trailing part. -/
theorem bitNumber_add (f : Nat → Nat) (off m w : Nat) :
    bitNumber f off (m + w) = bitNumber f off m * 2 ^ w + bitNumber f (off + m) w := by
  induction w with
  | zero => simp [bitNumber_zero]
  | succ w ih =>
    rw [← Nat.add_assoc, bitNumber_succ, ih, bitNumber_succ, pow_succ, Nat.add_assoc off]
    ring

theorem bitNumber_lt {f : Nat → Nat} {off m : Nat} (h : ∀ i < m, f (off + i) ≤ 1) :
    bitNumber f off m < 2 ^ m := by
  induction m with
  | zero => simp [bitNumber_zero]
  | succ m ih =>
    have h1 := ih fun i hi => h i (by omega)
    have h2 := h m (by omega)
    rw [bitNumber_succ, pow_succ]
    omega

theorem bitNumber_congr {f g : Nat → Nat} {o1 o2 m : Nat} (h : ∀ i < m, f (o1 + i) = g (o2 + i)) :
    bitNumber f o1 m = bitNumber g o2 m := by
  unfold bitNumber
  exact Finset.sum_congr rfl fun i hi => by rw [h i (Finset.mem_range.mp hi)]

end Sys2Proof.Machine
end

