-- ==== Sys2Proof/Laws/Memory.lean ====
section
/-! SUPPORT. The laws of the two memories: a read after a write, and that a write keeps the canonical form. -/

namespace Sys2Proof.Machine

/-- Reading after a write: the written byte at its address, elsewhere what was there. -/
theorem Memory.get_put (m : Memory) (a x : Nat) (b : Byte) :
    (m.put a b).get x = if x = a then some b else m.get x := by
  induction m with
  | nil => simp [Memory.put, Memory.get]
  | cons c m ih =>
    simp only [Memory.put]
    split
    · simp [Memory.get]
    · split
      · simp only [Memory.get]
        grind
      · simp only [Memory.get, ih]
        grind

/-- A written entry is the new one or an old one. -/
theorem Memory.mem_put {m : Memory} {a : Nat} {b : Byte} {c : Host.Cell} (h : c ∈ m.put a b) :
    c = (a, b) ∨ c ∈ m := by
  induction m with
  | nil => simpa [Memory.put] using h
  | cons d m ih =>
    simp only [Memory.put] at h
    split at h
    · simpa using h
    · split at h
      · rcases List.mem_cons.mp h with h | h
        · exact .inl h
        · exact .inr (List.mem_cons_of_mem _ h)
      · rcases List.mem_cons.mp h with h | h
        · exact .inr (h ▸ List.mem_cons_self)
        · exact (ih h).imp_right (List.mem_cons_of_mem _)

theorem Memory.risesAbove_put {l a : Nat} {m : Memory} (b : Byte) (hl : l < a) (h : Memory.risesAbove l m = true) :
    Memory.risesAbove l (m.put a b) = true := by
  induction m generalizing l with
  | nil => simpa [Memory.put, Memory.risesAbove] using hl
  | cons c m ih =>
    simp only [Memory.risesAbove, Bool.and_eq_true, decide_eq_true_eq] at h
    simp only [Memory.put]
    split
    · simp_all [Memory.risesAbove]
    · split
      · simp_all [Memory.risesAbove]
      · simp only [Memory.risesAbove, Bool.and_eq_true, decide_eq_true_eq]
        exact ⟨h.1, ih (by omega) h.2⟩

/-- Every write keeps the canonical form. -/
theorem Memory.wf_put {m : Memory} (a : Nat) (b : Byte) (h : m.wf = true) : (m.put a b).wf = true := by
  cases m with
  | nil => rfl
  | cons c m =>
    simp only [Memory.wf] at h
    simp only [Memory.put]
    split
    · simp_all [Memory.wf, Memory.risesAbove]
    · split
      · simp_all [Memory.wf]
      · exact Memory.risesAbove_put b (by omega) h

/-- One byte of pattern memory written: that byte of the contents, and no other. -/
theorem byteAt_putPattern (s : State) (a x : Nat) (b : Byte) :
    ({ s with pm := s.pm.put a b } : State).byteAt .pattern x = if x = a then b else s.byteAt .pattern x := by
  by_cases h : x = a <;> simp [State.byteAt, State.memory, Memory.get_put, h]

/-- One byte of haystack memory written: that byte of the contents, and no other. -/
theorem byteAt_putHaystack (s : State) (a x : Nat) (b : Byte) :
    ({ s with hm := s.hm.put a b } : State).byteAt .haystack x = if x = a then b else s.byteAt .haystack x := by
  by_cases h : x = a <;> simp [State.byteAt, State.memory, Memory.get_put, h]

end Sys2Proof.Machine
end

