-- ==== Sys2Proof/Laws/State.lean ====
section
/-! SUPPORT. One lemma for each field and each named update of the state, true by unfolding, and for each update that
touches no memory one lemma that the contents of the memories are as before. No proof needs to unfold an update. -/

namespace Sys2Proof.Machine

variable (s : State)

/-! ### offer -/

@[simp] theorem offer_pstate (w : Word) : (offer w s).pstate = s.pstate := rfl
@[simp] theorem offer_wvalid (w : Word) : (offer w s).wvalid = s.wvalid := rfl
@[simp] theorem offer_err (w : Word) : (offer w s).err = s.err := rfl
@[simp] theorem offer_hbytes (w : Word) : (offer w s).hbytes = s.hbytes := rfl
@[simp] theorem offer_pbits (w : Word) : (offer w s).pbits = s.pbits := rfl
@[simp] theorem offer_pfill (w : Word) : (offer w s).pfill = s.pfill := rfl
@[simp] theorem offer_phash (w : Word) : (offer w s).phash = s.phash := rfl
@[simp] theorem offer_pcan (w : Word) : (offer w s).pcan = s.pcan := rfl
@[simp] theorem offer_rnum (w : Word) : (offer w s).rnum = s.rnum := rfl
@[simp] theorem offer_lhash (w : Word) : (offer w s).lhash = s.lhash := rfl
@[simp] theorem offer_wend (w : Word) : (offer w s).wend = s.wend := rfl
@[simp] theorem offer_verdict (w : Word) : (offer w s).verdict = s.verdict := rfl
@[simp] theorem offer_moff (w : Word) : (offer w s).moff = s.moff := rfl
@[simp] theorem offer_pm (w : Word) : (offer w s).pm = s.pm := rfl
@[simp] theorem offer_hm (w : Word) : (offer w s).hm = s.hm := rfl
@[simp] theorem offer_patCap (w : Word) : (offer w s).patCap = s.patCap := rfl
@[simp] theorem offer_host (w : Word) : (offer w s).host = s.host := rfl
@[simp] theorem offer_rsp (w : Word) : (offer w s).rsp = some w := rfl
@[simp] theorem offer_freeIx (w : Word) : (offer w s).freeIx = s.freeIx := rfl
@[simp] theorem offer_byteAt (w : Word) (sp : Space) (x : Nat) : (offer w s).byteAt sp x = s.byteAt sp x := rfl
@[simp] theorem offer_bitAt (w : Word) (sp : Space) : (offer w s).bitAt sp = s.bitAt sp := rfl
@[simp] theorem offer_hayBits (w : Word) : (offer w s).hayBits = s.hayBits := rfl

/-! ### afterError -/

@[simp] theorem afterError_pstate (e : Err) : (afterError e s).pstate = s.pstate := rfl
@[simp] theorem afterError_wvalid (e : Err) : (afterError e s).wvalid = s.wvalid := rfl
@[simp] theorem afterError_err (e : Err) : (afterError e s).err = s.err.or (some e) := rfl
@[simp] theorem afterError_hbytes (e : Err) : (afterError e s).hbytes = s.hbytes := rfl
@[simp] theorem afterError_pbits (e : Err) : (afterError e s).pbits = s.pbits := rfl
@[simp] theorem afterError_pfill (e : Err) : (afterError e s).pfill = s.pfill := rfl
@[simp] theorem afterError_phash (e : Err) : (afterError e s).phash = s.phash := rfl
@[simp] theorem afterError_pcan (e : Err) : (afterError e s).pcan = s.pcan := rfl
@[simp] theorem afterError_rnum (e : Err) : (afterError e s).rnum = s.rnum := rfl
@[simp] theorem afterError_lhash (e : Err) : (afterError e s).lhash = s.lhash := rfl
@[simp] theorem afterError_wend (e : Err) : (afterError e s).wend = s.wend := rfl
@[simp] theorem afterError_verdict (e : Err) : (afterError e s).verdict = s.verdict := rfl
@[simp] theorem afterError_moff (e : Err) : (afterError e s).moff = s.moff := rfl
@[simp] theorem afterError_pm (e : Err) : (afterError e s).pm = s.pm := rfl
@[simp] theorem afterError_hm (e : Err) : (afterError e s).hm = s.hm := rfl
@[simp] theorem afterError_patCap (e : Err) : (afterError e s).patCap = s.patCap := rfl
@[simp] theorem afterError_host (e : Err) : (afterError e s).host = s.host := rfl
@[simp] theorem afterError_rsp (e : Err) : (afterError e s).rsp = some (errorWord e) := rfl
@[simp] theorem afterError_freeIx (e : Err) : (afterError e s).freeIx = s.freeIx := rfl
@[simp] theorem afterError_byteAt (e : Err) (sp : Space) (x : Nat) : (afterError e s).byteAt sp x = s.byteAt sp x := rfl
@[simp] theorem afterError_bitAt (e : Err) (sp : Space) : (afterError e s).bitAt sp = s.bitAt sp := rfl
@[simp] theorem afterError_hayBits (e : Err) : (afterError e s).hayBits = s.hayBits := rfl

/-! ### clearError -/

@[simp] theorem clearError_pstate : (clearError s).pstate = s.pstate := rfl
@[simp] theorem clearError_wvalid : (clearError s).wvalid = s.wvalid := rfl
@[simp] theorem clearError_err : (clearError s).err = none := rfl
@[simp] theorem clearError_hbytes : (clearError s).hbytes = s.hbytes := rfl
@[simp] theorem clearError_pbits : (clearError s).pbits = s.pbits := rfl
@[simp] theorem clearError_pfill : (clearError s).pfill = s.pfill := rfl
@[simp] theorem clearError_phash : (clearError s).phash = s.phash := rfl
@[simp] theorem clearError_pcan : (clearError s).pcan = s.pcan := rfl
@[simp] theorem clearError_rnum : (clearError s).rnum = s.rnum := rfl
@[simp] theorem clearError_lhash : (clearError s).lhash = s.lhash := rfl
@[simp] theorem clearError_wend : (clearError s).wend = s.wend := rfl
@[simp] theorem clearError_verdict : (clearError s).verdict = s.verdict := rfl
@[simp] theorem clearError_moff : (clearError s).moff = s.moff := rfl
@[simp] theorem clearError_pm : (clearError s).pm = s.pm := rfl
@[simp] theorem clearError_hm : (clearError s).hm = s.hm := rfl
@[simp] theorem clearError_patCap : (clearError s).patCap = s.patCap := rfl
@[simp] theorem clearError_host : (clearError s).host = s.host := rfl
@[simp] theorem clearError_rsp : (clearError s).rsp = s.rsp := rfl
@[simp] theorem clearError_freeIx : (clearError s).freeIx = s.freeIx := rfl
@[simp] theorem clearError_byteAt (sp : Space) (x : Nat) : (clearError s).byteAt sp x = s.byteAt sp x := rfl
@[simp] theorem clearError_bitAt (sp : Space) : (clearError s).bitAt sp = s.bitAt sp := rfl
@[simp] theorem clearError_hayBits : (clearError s).hayBits = s.hayBits := rfl

/-! ### forgetSearch -/

@[simp] theorem forgetSearch_pstate : (forgetSearch s).pstate = s.pstate := rfl
@[simp] theorem forgetSearch_wvalid : (forgetSearch s).wvalid = false := rfl
@[simp] theorem forgetSearch_err : (forgetSearch s).err = s.err := rfl
@[simp] theorem forgetSearch_hbytes : (forgetSearch s).hbytes = s.hbytes := rfl
@[simp] theorem forgetSearch_pbits : (forgetSearch s).pbits = s.pbits := rfl
@[simp] theorem forgetSearch_pfill : (forgetSearch s).pfill = s.pfill := rfl
@[simp] theorem forgetSearch_phash : (forgetSearch s).phash = s.phash := rfl
@[simp] theorem forgetSearch_pcan : (forgetSearch s).pcan = s.pcan := rfl
@[simp] theorem forgetSearch_rnum : (forgetSearch s).rnum = s.rnum := rfl
@[simp] theorem forgetSearch_lhash : (forgetSearch s).lhash = s.lhash := rfl
@[simp] theorem forgetSearch_wend : (forgetSearch s).wend = s.wend := rfl
@[simp] theorem forgetSearch_verdict : (forgetSearch s).verdict = .none := rfl
@[simp] theorem forgetSearch_moff : (forgetSearch s).moff = 0 := rfl
@[simp] theorem forgetSearch_pm : (forgetSearch s).pm = s.pm := rfl
@[simp] theorem forgetSearch_hm : (forgetSearch s).hm = s.hm := rfl
@[simp] theorem forgetSearch_patCap : (forgetSearch s).patCap = s.patCap := rfl
@[simp] theorem forgetSearch_host : (forgetSearch s).host = s.host := rfl
@[simp] theorem forgetSearch_rsp : (forgetSearch s).rsp = s.rsp := rfl
@[simp] theorem forgetSearch_freeIx : (forgetSearch s).freeIx = s.freeIx := rfl
@[simp] theorem forgetSearch_byteAt (sp : Space) (x : Nat) : (forgetSearch s).byteAt sp x = s.byteAt sp x := rfl
@[simp] theorem forgetSearch_bitAt (sp : Space) : (forgetSearch s).bitAt sp = s.bitAt sp := rfl
@[simp] theorem forgetSearch_hayBits : (forgetSearch s).hayBits = s.hayBits := rfl

/-! ### setFound -/

@[simp] theorem setFound_pstate (off : Nat) : (setFound off s).pstate = s.pstate := rfl
@[simp] theorem setFound_wvalid (off : Nat) : (setFound off s).wvalid = s.wvalid := rfl
@[simp] theorem setFound_err (off : Nat) : (setFound off s).err = s.err := rfl
@[simp] theorem setFound_hbytes (off : Nat) : (setFound off s).hbytes = s.hbytes := rfl
@[simp] theorem setFound_pbits (off : Nat) : (setFound off s).pbits = s.pbits := rfl
@[simp] theorem setFound_pfill (off : Nat) : (setFound off s).pfill = s.pfill := rfl
@[simp] theorem setFound_phash (off : Nat) : (setFound off s).phash = s.phash := rfl
@[simp] theorem setFound_pcan (off : Nat) : (setFound off s).pcan = s.pcan := rfl
@[simp] theorem setFound_rnum (off : Nat) : (setFound off s).rnum = s.rnum := rfl
@[simp] theorem setFound_lhash (off : Nat) : (setFound off s).lhash = s.lhash := rfl
@[simp] theorem setFound_wend (off : Nat) : (setFound off s).wend = s.wend := rfl
@[simp] theorem setFound_verdict (off : Nat) : (setFound off s).verdict = .found := rfl
@[simp] theorem setFound_moff (off : Nat) : (setFound off s).moff = BitVec.ofNat 24 off := rfl
@[simp] theorem setFound_pm (off : Nat) : (setFound off s).pm = s.pm := rfl
@[simp] theorem setFound_hm (off : Nat) : (setFound off s).hm = s.hm := rfl
@[simp] theorem setFound_patCap (off : Nat) : (setFound off s).patCap = s.patCap := rfl
@[simp] theorem setFound_host (off : Nat) : (setFound off s).host = s.host := rfl
@[simp] theorem setFound_rsp (off : Nat) : (setFound off s).rsp = s.rsp := rfl
@[simp] theorem setFound_freeIx (off : Nat) : (setFound off s).freeIx = s.freeIx := rfl
@[simp] theorem setFound_byteAt (off : Nat) (sp : Space) (x : Nat) : (setFound off s).byteAt sp x = s.byteAt sp x := rfl
@[simp] theorem setFound_bitAt (off : Nat) (sp : Space) : (setFound off s).bitAt sp = s.bitAt sp := rfl
@[simp] theorem setFound_hayBits (off : Nat) : (setFound off s).hayBits = s.hayBits := rfl

/-! ### setNotFound -/

@[simp] theorem setNotFound_pstate : (setNotFound s).pstate = s.pstate := rfl
@[simp] theorem setNotFound_wvalid : (setNotFound s).wvalid = s.wvalid := rfl
@[simp] theorem setNotFound_err : (setNotFound s).err = s.err := rfl
@[simp] theorem setNotFound_hbytes : (setNotFound s).hbytes = s.hbytes := rfl
@[simp] theorem setNotFound_pbits : (setNotFound s).pbits = s.pbits := rfl
@[simp] theorem setNotFound_pfill : (setNotFound s).pfill = s.pfill := rfl
@[simp] theorem setNotFound_phash : (setNotFound s).phash = s.phash := rfl
@[simp] theorem setNotFound_pcan : (setNotFound s).pcan = s.pcan := rfl
@[simp] theorem setNotFound_rnum : (setNotFound s).rnum = s.rnum := rfl
@[simp] theorem setNotFound_lhash : (setNotFound s).lhash = s.lhash := rfl
@[simp] theorem setNotFound_wend : (setNotFound s).wend = s.wend := rfl
@[simp] theorem setNotFound_verdict : (setNotFound s).verdict = .notFound := rfl
@[simp] theorem setNotFound_moff : (setNotFound s).moff = 0 := rfl
@[simp] theorem setNotFound_pm : (setNotFound s).pm = s.pm := rfl
@[simp] theorem setNotFound_hm : (setNotFound s).hm = s.hm := rfl
@[simp] theorem setNotFound_patCap : (setNotFound s).patCap = s.patCap := rfl
@[simp] theorem setNotFound_host : (setNotFound s).host = s.host := rfl
@[simp] theorem setNotFound_rsp : (setNotFound s).rsp = s.rsp := rfl
@[simp] theorem setNotFound_freeIx : (setNotFound s).freeIx = s.freeIx := rfl
@[simp] theorem setNotFound_byteAt (sp : Space) (x : Nat) : (setNotFound s).byteAt sp x = s.byteAt sp x := rfl
@[simp] theorem setNotFound_bitAt (sp : Space) : (setNotFound s).bitAt sp = s.bitAt sp := rfl
@[simp] theorem setNotFound_hayBits : (setNotFound s).hayBits = s.hayBits := rfl

/-! ### openWindow -/

@[simp] theorem openWindow_pstate (h : Nat) : (openWindow h s).pstate = s.pstate := rfl
@[simp] theorem openWindow_wvalid (h : Nat) : (openWindow h s).wvalid = true := rfl
@[simp] theorem openWindow_err (h : Nat) : (openWindow h s).err = s.err := rfl
@[simp] theorem openWindow_hbytes (h : Nat) : (openWindow h s).hbytes = s.hbytes := rfl
@[simp] theorem openWindow_pbits (h : Nat) : (openWindow h s).pbits = s.pbits := rfl
@[simp] theorem openWindow_pfill (h : Nat) : (openWindow h s).pfill = s.pfill := rfl
@[simp] theorem openWindow_phash (h : Nat) : (openWindow h s).phash = s.phash := rfl
@[simp] theorem openWindow_pcan (h : Nat) : (openWindow h s).pcan = s.pcan := rfl
@[simp] theorem openWindow_rnum (h : Nat) : (openWindow h s).rnum = s.rnum := rfl
@[simp] theorem openWindow_lhash (h : Nat) : (openWindow h s).lhash = BitVec.ofNat 8 h := rfl
@[simp] theorem openWindow_wend (h : Nat) : (openWindow h s).wend = s.pbits := rfl
@[simp] theorem openWindow_verdict (h : Nat) : (openWindow h s).verdict = s.verdict := rfl
@[simp] theorem openWindow_moff (h : Nat) : (openWindow h s).moff = s.moff := rfl
@[simp] theorem openWindow_pm (h : Nat) : (openWindow h s).pm = s.pm := rfl
@[simp] theorem openWindow_hm (h : Nat) : (openWindow h s).hm = s.hm := rfl
@[simp] theorem openWindow_patCap (h : Nat) : (openWindow h s).patCap = s.patCap := rfl
@[simp] theorem openWindow_host (h : Nat) : (openWindow h s).host = s.host := rfl
@[simp] theorem openWindow_rsp (h : Nat) : (openWindow h s).rsp = s.rsp := rfl
@[simp] theorem openWindow_freeIx (h : Nat) : (openWindow h s).freeIx = s.freeIx := rfl
@[simp] theorem openWindow_byteAt (h : Nat) (sp : Space) (x : Nat) : (openWindow h s).byteAt sp x = s.byteAt sp x := rfl
@[simp] theorem openWindow_bitAt (h : Nat) (sp : Space) : (openWindow h s).bitAt sp = s.bitAt sp := rfl
@[simp] theorem openWindow_hayBits (h : Nat) : (openWindow h s).hayBits = s.hayBits := rfl

/-! ### moveWindow -/

@[simp] theorem moveWindow_pstate (h : Nat) : (moveWindow h s).pstate = s.pstate := rfl
@[simp] theorem moveWindow_wvalid (h : Nat) : (moveWindow h s).wvalid = s.wvalid := rfl
@[simp] theorem moveWindow_err (h : Nat) : (moveWindow h s).err = s.err := rfl
@[simp] theorem moveWindow_hbytes (h : Nat) : (moveWindow h s).hbytes = s.hbytes := rfl
@[simp] theorem moveWindow_pbits (h : Nat) : (moveWindow h s).pbits = s.pbits := rfl
@[simp] theorem moveWindow_pfill (h : Nat) : (moveWindow h s).pfill = s.pfill := rfl
@[simp] theorem moveWindow_phash (h : Nat) : (moveWindow h s).phash = s.phash := rfl
@[simp] theorem moveWindow_pcan (h : Nat) : (moveWindow h s).pcan = s.pcan := rfl
@[simp] theorem moveWindow_rnum (h : Nat) : (moveWindow h s).rnum = s.rnum := rfl
@[simp] theorem moveWindow_lhash (h : Nat) : (moveWindow h s).lhash = BitVec.ofNat 8 h := rfl
@[simp] theorem moveWindow_wend (h : Nat) : (moveWindow h s).wend = BitVec.ofNat 24 (s.wend.toNat + 1) := rfl
@[simp] theorem moveWindow_verdict (h : Nat) : (moveWindow h s).verdict = s.verdict := rfl
@[simp] theorem moveWindow_moff (h : Nat) : (moveWindow h s).moff = s.moff := rfl
@[simp] theorem moveWindow_pm (h : Nat) : (moveWindow h s).pm = s.pm := rfl
@[simp] theorem moveWindow_hm (h : Nat) : (moveWindow h s).hm = s.hm := rfl
@[simp] theorem moveWindow_patCap (h : Nat) : (moveWindow h s).patCap = s.patCap := rfl
@[simp] theorem moveWindow_host (h : Nat) : (moveWindow h s).host = s.host := rfl
@[simp] theorem moveWindow_rsp (h : Nat) : (moveWindow h s).rsp = s.rsp := rfl
@[simp] theorem moveWindow_freeIx (h : Nat) : (moveWindow h s).freeIx = s.freeIx := rfl
@[simp] theorem moveWindow_byteAt (h : Nat) (sp : Space) (x : Nat) : (moveWindow h s).byteAt sp x = s.byteAt sp x := rfl
@[simp] theorem moveWindow_bitAt (h : Nat) (sp : Space) : (moveWindow h s).bitAt sp = s.bitAt sp := rfl
@[simp] theorem moveWindow_hayBits (h : Nat) : (moveWindow h s).hayBits = s.hayBits := rfl

/-! ### openCompile -/

@[simp] theorem openCompile_pstate (n : Nat) : (openCompile n s).pstate = if n = 0 then .ready else .loading := rfl
@[simp] theorem openCompile_wvalid (n : Nat) : (openCompile n s).wvalid = false := rfl
@[simp] theorem openCompile_err (n : Nat) : (openCompile n s).err = s.err := rfl
@[simp] theorem openCompile_hbytes (n : Nat) : (openCompile n s).hbytes = s.hbytes := rfl
@[simp] theorem openCompile_pbits (n : Nat) : (openCompile n s).pbits = BitVec.ofNat 24 n := rfl
@[simp] theorem openCompile_pfill (n : Nat) : (openCompile n s).pfill = 0 := rfl
@[simp] theorem openCompile_phash (n : Nat) : (openCompile n s).phash = 0 := rfl
@[simp] theorem openCompile_pcan (n : Nat) : (openCompile n s).pcan = if n = 0 then 83#8 else 0 := rfl
@[simp] theorem openCompile_rnum (n : Nat) : (openCompile n s).rnum = 84#8 := rfl
@[simp] theorem openCompile_lhash (n : Nat) : (openCompile n s).lhash = s.lhash := rfl
@[simp] theorem openCompile_wend (n : Nat) : (openCompile n s).wend = s.wend := rfl
@[simp] theorem openCompile_verdict (n : Nat) : (openCompile n s).verdict = .none := rfl
@[simp] theorem openCompile_moff (n : Nat) : (openCompile n s).moff = 0 := rfl
@[simp] theorem openCompile_pm (n : Nat) : (openCompile n s).pm = s.pm := rfl
@[simp] theorem openCompile_hm (n : Nat) : (openCompile n s).hm = s.hm := rfl
@[simp] theorem openCompile_patCap (n : Nat) : (openCompile n s).patCap = s.patCap := rfl
@[simp] theorem openCompile_host (n : Nat) : (openCompile n s).host = s.host := rfl
@[simp] theorem openCompile_rsp (n : Nat) : (openCompile n s).rsp = s.rsp := rfl
@[simp] theorem openCompile_freeIx (n : Nat) : (openCompile n s).freeIx = s.freeIx := rfl
@[simp] theorem openCompile_byteAt (n : Nat) (sp : Space) (x : Nat) : (openCompile n s).byteAt sp x = s.byteAt sp x := rfl
@[simp] theorem openCompile_bitAt (n : Nat) (sp : Space) : (openCompile n s).bitAt sp = s.bitAt sp := rfl
@[simp] theorem openCompile_hayBits (n : Nat) : (openCompile n s).hayBits = s.hayBits := rfl

/-! ### resetRegisters -/

@[simp] theorem resetRegisters_pstate : (resetRegisters s).pstate = .none := rfl
@[simp] theorem resetRegisters_wvalid : (resetRegisters s).wvalid = false := rfl
@[simp] theorem resetRegisters_err : (resetRegisters s).err = none := rfl
@[simp] theorem resetRegisters_hbytes : (resetRegisters s).hbytes = 0 := rfl
@[simp] theorem resetRegisters_pbits : (resetRegisters s).pbits = 0 := rfl
@[simp] theorem resetRegisters_pfill : (resetRegisters s).pfill = 0 := rfl
@[simp] theorem resetRegisters_phash : (resetRegisters s).phash = 0 := rfl
@[simp] theorem resetRegisters_pcan : (resetRegisters s).pcan = 0 := rfl
@[simp] theorem resetRegisters_rnum : (resetRegisters s).rnum = 84#8 := rfl
@[simp] theorem resetRegisters_lhash : (resetRegisters s).lhash = 0 := rfl
@[simp] theorem resetRegisters_wend : (resetRegisters s).wend = 0 := rfl
@[simp] theorem resetRegisters_verdict : (resetRegisters s).verdict = .none := rfl
@[simp] theorem resetRegisters_moff : (resetRegisters s).moff = 0 := rfl
@[simp] theorem resetRegisters_pm : (resetRegisters s).pm = s.pm := rfl
@[simp] theorem resetRegisters_hm : (resetRegisters s).hm = s.hm := rfl
@[simp] theorem resetRegisters_patCap : (resetRegisters s).patCap = s.patCap := rfl
@[simp] theorem resetRegisters_host : (resetRegisters s).host = s.host := rfl
@[simp] theorem resetRegisters_rsp : (resetRegisters s).rsp = s.rsp := rfl
@[simp] theorem resetRegisters_freeIx : (resetRegisters s).freeIx = s.freeIx := rfl
@[simp] theorem resetRegisters_byteAt (sp : Space) (x : Nat) : (resetRegisters s).byteAt sp x = s.byteAt sp x := rfl
@[simp] theorem resetRegisters_bitAt (sp : Space) : (resetRegisters s).bitAt sp = s.bitAt sp := rfl

/-! ### hardReset -/

@[simp] theorem hardReset_pstate : (hardReset s).pstate = .none := rfl
@[simp] theorem hardReset_wvalid : (hardReset s).wvalid = false := rfl
@[simp] theorem hardReset_err : (hardReset s).err = none := rfl
@[simp] theorem hardReset_hbytes : (hardReset s).hbytes = 0 := rfl
@[simp] theorem hardReset_pbits : (hardReset s).pbits = 0 := rfl
@[simp] theorem hardReset_pfill : (hardReset s).pfill = 0 := rfl
@[simp] theorem hardReset_phash : (hardReset s).phash = 0 := rfl
@[simp] theorem hardReset_pcan : (hardReset s).pcan = 0 := rfl
@[simp] theorem hardReset_rnum : (hardReset s).rnum = 84#8 := rfl
@[simp] theorem hardReset_lhash : (hardReset s).lhash = 0 := rfl
@[simp] theorem hardReset_wend : (hardReset s).wend = 0 := rfl
@[simp] theorem hardReset_verdict : (hardReset s).verdict = .none := rfl
@[simp] theorem hardReset_moff : (hardReset s).moff = 0 := rfl
@[simp] theorem hardReset_pm : (hardReset s).pm = s.pm := rfl
@[simp] theorem hardReset_hm : (hardReset s).hm = s.hm := rfl
@[simp] theorem hardReset_patCap : (hardReset s).patCap = s.patCap := rfl
@[simp] theorem hardReset_host : (hardReset s).host = s.host := rfl
@[simp] theorem hardReset_rsp : (hardReset s).rsp = none := rfl
@[simp] theorem hardReset_freeIx : (hardReset s).freeIx = s.freeIx := rfl
@[simp] theorem hardReset_byteAt (sp : Space) (x : Nat) : (hardReset s).byteAt sp x = s.byteAt sp x := rfl
@[simp] theorem hardReset_bitAt (sp : Space) : (hardReset s).bitAt sp = s.bitAt sp := rfl

/-! ### hostWrite -/

@[simp] theorem hostWrite_pstate (a : BitVec 21) (b : Byte) : (hostWrite a b s).pstate = s.pstate := rfl
@[simp] theorem hostWrite_wvalid (a : BitVec 21) (b : Byte) : (hostWrite a b s).wvalid = s.wvalid := rfl
@[simp] theorem hostWrite_err (a : BitVec 21) (b : Byte) : (hostWrite a b s).err = s.err := rfl
@[simp] theorem hostWrite_hbytes (a : BitVec 21) (b : Byte) : (hostWrite a b s).hbytes = s.hbytes := rfl
@[simp] theorem hostWrite_pbits (a : BitVec 21) (b : Byte) : (hostWrite a b s).pbits = s.pbits := rfl
@[simp] theorem hostWrite_pfill (a : BitVec 21) (b : Byte) : (hostWrite a b s).pfill = s.pfill := rfl
@[simp] theorem hostWrite_phash (a : BitVec 21) (b : Byte) : (hostWrite a b s).phash = s.phash := rfl
@[simp] theorem hostWrite_pcan (a : BitVec 21) (b : Byte) : (hostWrite a b s).pcan = s.pcan := rfl
@[simp] theorem hostWrite_rnum (a : BitVec 21) (b : Byte) : (hostWrite a b s).rnum = s.rnum := rfl
@[simp] theorem hostWrite_lhash (a : BitVec 21) (b : Byte) : (hostWrite a b s).lhash = s.lhash := rfl
@[simp] theorem hostWrite_wend (a : BitVec 21) (b : Byte) : (hostWrite a b s).wend = s.wend := rfl
@[simp] theorem hostWrite_verdict (a : BitVec 21) (b : Byte) : (hostWrite a b s).verdict = s.verdict := rfl
@[simp] theorem hostWrite_moff (a : BitVec 21) (b : Byte) : (hostWrite a b s).moff = s.moff := rfl
@[simp] theorem hostWrite_pm (a : BitVec 21) (b : Byte) : (hostWrite a b s).pm = s.pm := rfl
@[simp] theorem hostWrite_hm (a : BitVec 21) (b : Byte) : (hostWrite a b s).hm = s.hm.put a.toNat b := rfl
@[simp] theorem hostWrite_patCap (a : BitVec 21) (b : Byte) : (hostWrite a b s).patCap = s.patCap := rfl
@[simp] theorem hostWrite_host (a : BitVec 21) (b : Byte) : (hostWrite a b s).host = s.host := rfl
@[simp] theorem hostWrite_rsp (a : BitVec 21) (b : Byte) : (hostWrite a b s).rsp = s.rsp := rfl
@[simp] theorem hostWrite_freeIx (a : BitVec 21) (b : Byte) : (hostWrite a b s).freeIx = s.freeIx := rfl
@[simp] theorem hostWrite_hayBits (a : BitVec 21) (b : Byte) : (hostWrite a b s).hayBits = s.hayBits := rfl

/-! ### advanceCompile -/

@[simp] theorem advanceCompile_pstate (w cv : Nat) : (advanceCompile w cv s).pstate =
    if s.pfill.toNat + w = s.pbits.toNat then .ready else s.pstate := rfl
@[simp] theorem advanceCompile_wvalid (w cv : Nat) : (advanceCompile w cv s).wvalid = s.wvalid := rfl
@[simp] theorem advanceCompile_err (w cv : Nat) : (advanceCompile w cv s).err = s.err := rfl
@[simp] theorem advanceCompile_hbytes (w cv : Nat) : (advanceCompile w cv s).hbytes = s.hbytes := rfl
@[simp] theorem advanceCompile_pbits (w cv : Nat) : (advanceCompile w cv s).pbits = s.pbits := rfl
@[simp] theorem advanceCompile_pfill (w cv : Nat) : (advanceCompile w cv s).pfill =
    BitVec.ofNat 24 (s.pfill.toNat + w) := rfl
@[simp] theorem advanceCompile_phash (w cv : Nat) : (advanceCompile w cv s).phash =
    BitVec.ofNat 8 (fold s.phash.toNat w cv) := rfl
@[simp] theorem advanceCompile_pcan (w cv : Nat) : (advanceCompile w cv s).pcan =
    if s.pfill.toNat + w = s.pbits.toNat then BitVec.ofNat 8 (cancelTerm (rnumStep s.rnum.toNat w)) else s.pcan := rfl
@[simp] theorem advanceCompile_rnum (w cv : Nat) : (advanceCompile w cv s).rnum =
    BitVec.ofNat 8 (rnumStep s.rnum.toNat w) := rfl
@[simp] theorem advanceCompile_lhash (w cv : Nat) : (advanceCompile w cv s).lhash = s.lhash := rfl
@[simp] theorem advanceCompile_wend (w cv : Nat) : (advanceCompile w cv s).wend = s.wend := rfl
@[simp] theorem advanceCompile_verdict (w cv : Nat) : (advanceCompile w cv s).verdict = s.verdict := rfl
@[simp] theorem advanceCompile_moff (w cv : Nat) : (advanceCompile w cv s).moff = s.moff := rfl
@[simp] theorem advanceCompile_pm (w cv : Nat) : (advanceCompile w cv s).pm = s.pm := rfl
@[simp] theorem advanceCompile_hm (w cv : Nat) : (advanceCompile w cv s).hm = s.hm := rfl
@[simp] theorem advanceCompile_patCap (w cv : Nat) : (advanceCompile w cv s).patCap = s.patCap := rfl
@[simp] theorem advanceCompile_host (w cv : Nat) : (advanceCompile w cv s).host = s.host := rfl
@[simp] theorem advanceCompile_rsp (w cv : Nat) : (advanceCompile w cv s).rsp = s.rsp := rfl
@[simp] theorem advanceCompile_freeIx (w cv : Nat) : (advanceCompile w cv s).freeIx = s.freeIx := rfl
@[simp] theorem advanceCompile_byteAt (w cv : Nat) (sp : Space) (x : Nat) :
    (advanceCompile w cv s).byteAt sp x = s.byteAt sp x := rfl
@[simp] theorem advanceCompile_bitAt (w cv : Nat) (sp : Space) : (advanceCompile w cv s).bitAt sp = s.bitAt sp := rfl
@[simp] theorem advanceCompile_hayBits (w cv : Nat) : (advanceCompile w cv s).hayBits = s.hayBits := rfl

end Sys2Proof.Machine
end

