-- ==== Sys2Proof/Laws/Ops.lean ====
section
/-! SUPPORT. For each shared operation one lemma that says once everything it can do when it answers. Proofs cite these
instead of unfolding the operation. -/

namespace Sys2Proof.Machine

/-- A command goes on exactly where the partial operation before it answered. -/
theorem andThen_next {α : Type} {x : Except Fault α} {k : α → Result} {t : State} :
    andThen x k = .next t ↔ ∃ a, x = .ok a ∧ k a = .next t := by
  cases x <;> simp [andThen]

theorem readByte_ok {s : State} {sp : Space} {a : Nat} {b : Byte} :
    readByte s sp a = .ok b ↔ a < s.spaceBytes sp ∧ s.byteAt sp a = b := by
  unfold readByte
  split <;> simp_all

theorem writePattern_ok {s t : State} {a : Nat} {b : Byte} :
    writePattern a b s = .ok t ↔ a < s.patCap ∧ { s with pm := s.pm.put a b } = t := by
  unfold writePattern
  split <;> simp_all

theorem windowStart_ok {s : State} {n : Nat} :
    windowStart s = .ok n ↔ s.pbits.toNat ≤ s.wend.toNat ∧ s.wend.toNat - s.pbits.toNat = n := by
  unfold windowStart
  split <;> simp_all

/-- Where `extract` answers: its preconditions hold, the bytes it reads exist, and the answer is that of the two
consume steps (R122, R123). -/
theorem extract_ok {s : State} {sp : Space} {off c v : Nat} (h : extract s sp off c = .ok v) :
    (1 ≤ c ∧ c ≤ 8 ∧ off + c ≤ s.spaceBits sp) ∧ off / 8 < s.spaceBytes sp ∧
      ((off % 8 + c ≤ 8 ∧ v = ((s.byteAt sp (off / 8)).toNat >>> (8 - off % 8 - c)) &&& (2 ^ c - 1)) ∨
        (8 < off % 8 + c ∧ off / 8 + 1 < s.spaceBytes sp ∧
          v = ((((s.byteAt sp (off / 8)).toNat >>> 0) &&& (2 ^ (8 - off % 8) - 1)) <<< (c - (8 - off % 8))) |||
            (((s.byteAt sp (off / 8 + 1)).toNat >>> (8 - (c - (8 - off % 8)))) &&&
              (2 ^ (c - (8 - off % 8)) - 1)))) := by
  unfold extract at h
  split at h
  case isFalse => cases h
  case isTrue hp =>
    refine ⟨hp, ?_⟩
    rcases hb : readByte s sp (off / 8) with f | b1
    · simp [hb] at h
    · obtain ⟨hlt, rfl⟩ := readByte_ok.mp hb
      refine ⟨hlt, ?_⟩
      simp only [hb] at h
      by_cases hspan : off % 8 + c ≤ 8
      · left
        have ht1 : min c (8 - off % 8) = c := by omega
        simp only [ht1, Nat.sub_self, if_true] at h
        exact ⟨hspan, (Except.ok.inj h).symm⟩
      · right
        have ht1 : min c (8 - off % 8) = 8 - off % 8 := by omega
        have ht2 : c - (8 - off % 8) ≠ 0 := by omega
        simp only [ht1, if_neg ht2] at h
        rcases hb2 : readByte s sp (off / 8 + 1) with f | b2
        · simp [hb2] at h
        · obtain ⟨hlt2, rfl⟩ := readByte_ok.mp hb2
          simp only [hb2, Nat.sub_self] at h
          exact ⟨by omega, hlt2, (Except.ok.inj h).symm⟩

/-- Where `extract` is within its preconditions and the last byte it reads exists, it answers (R120, R123). -/
theorem extract_answers {s : State} {sp : Space} {off c : Nat} (h : 1 ≤ c ∧ c ≤ 8 ∧ off + c ≤ s.spaceBits sp)
    (hb : (off + c - 1) / 8 < s.spaceBytes sp) : ∃ v, extract s sp off c = .ok v := by
  have h1 : off / 8 < s.spaceBytes sp := by omega
  unfold extract
  rw [if_pos h]
  simp only [readByte, if_pos h1]
  split
  · exact ⟨_, rfl⟩
  · have h2 : off / 8 + 1 < s.spaceBytes sp := by omega
    simp only [if_pos h2]
    exact ⟨_, rfl⟩

/-- Where the check of a window answers: the window starts at or after offset 0, the hit is the equality of the hashes,
and on a hit the matcher gave the second bit (R164). -/
theorem checkWindow_ok {s : State} {hit m : Bool} (h : checkWindow s = .ok (hit, m)) :
    s.pbits.toNat ≤ s.wend.toNat ∧
      ((s.lhash = s.phash ∧ hit = true ∧ patternMatches s (s.wend.toNat - s.pbits.toNat) = .ok m) ∨
        (s.lhash ≠ s.phash ∧ hit = false ∧ m = false)) := by
  unfold checkWindow at h
  rcases hw : windowStart s with f | n
  · simp [hw] at h
  · obtain ⟨hle, rfl⟩ := windowStart_ok.mp hw
    refine ⟨hle, ?_⟩
    simp only [hw] at h
    split at h
    case isTrue heq =>
      rcases hm : patternMatches s (s.wend.toNat - s.pbits.toNat) with f | m'
      · simp [hm] at h
      · simp only [hm, Except.ok.injEq, Prod.mk.injEq] at h
        exact .inl ⟨heq, h.1.symm, by simp [h.2]⟩
    case isFalse hne =>
      simp only [Except.ok.injEq, Prod.mk.injEq] at h
      exact .inr ⟨hne, h.1.symm, h.2.symm⟩

/-- Where a shift answers: both bits were read, and only `LHASH` and `WEND` are written (R166). -/
theorem shiftWindow_ok {s t : State} (h : shiftWindow s = .ok t) :
    s.pbits.toNat ≤ s.wend.toNat ∧
      ∃ out inc, extract s .haystack (s.wend.toNat - s.pbits.toNat) 1 = .ok out ∧
        extract s .haystack s.wend.toNat 1 = .ok inc ∧
        t = moveWindow (shiftedHash s.lhash.toNat s.pcan.toNat out inc) s := by
  unfold shiftWindow at h
  rcases hw : windowStart s with f | n
  · simp [hw] at h
  · obtain ⟨hle, rfl⟩ := windowStart_ok.mp hw
    refine ⟨hle, ?_⟩
    simp only [hw] at h
    rcases ho : extract s .haystack (s.wend.toNat - s.pbits.toNat) 1 with f | out
    · simp [ho] at h
    · simp only [ho] at h
      rcases hi : extract s .haystack s.wend.toNat 1 with f | inc
      · simp [hi] at h
      · simp only [hi, Except.ok.injEq] at h
        exact ⟨out, inc, rfl, rfl, h.symm⟩

/-- `s` with another `LHASH` and `WEND`: all that the loop of `SCAN` changes before it ends. -/
def atWindow (s : State) (h : BitVec 8) (e : BitVec 24) : State := { s with lhash := h, wend := e }

/-- Where the loop of `SCAN` answers: it ends at some window, by a confirmed match or at the last position (R168). -/
theorem scanLoop_next {k : Nat} {s t : State} (h : scanLoop k s = .next t) :
    ∃ l e, (checkWindow (atWindow s l e) = .ok (true, true) ∧
        scanFound (e.toNat - s.pbits.toNat) (atWindow s l e) = .next t) ∨
      ((∃ hit, checkWindow (atWindow s l e) = .ok (hit, false)) ∧ scanNotFound (atWindow s l e) = .next t) := by
  have found : ∀ {s' : State} {c : Bool × Bool}, checkWindow s' = .ok c → c.2 = true →
      checkWindow s' = .ok (true, true) := by
    rintro s' ⟨hit, m⟩ hc rfl
    rcases (checkWindow_ok hc).2 with ⟨-, rfl, -⟩ | ⟨-, -, hm⟩
    · exact hc
    · cases hm
  induction k generalizing s with
  | zero =>
    obtain ⟨c, hc, hk⟩ := andThen_next.mp h
    refine ⟨s.lhash, s.wend, ?_⟩
    split at hk
    case isTrue hm => exact .inl ⟨found hc hm, hk⟩
    case isFalse hm => exact .inr ⟨⟨c.1, by rw [show (c.1, false) = c from by ext <;> simp_all]; exact hc⟩, hk⟩
  | succ k ih =>
    obtain ⟨c, hc, hk⟩ := andThen_next.mp h
    split at hk
    case isTrue hm => exact ⟨s.lhash, s.wend, .inl ⟨found hc hm, hk⟩⟩
    case isFalse hm =>
      obtain ⟨s', hs', hl⟩ := andThen_next.mp hk
      obtain ⟨-, out, inc, -, -, rfl⟩ := shiftWindow_ok hs'
      have := ih hl
      exact this

/-- `s` after `pack(nib)` at position `fill`: one byte of pattern memory is written (R145). -/
def packed (nib fill : Nat) (s : State) : State :=
  { s with pm := s.pm.put (fill / 8) (packedByte nib fill (s.byteAt .pattern (fill / 8))) }

/-- Packing changes the one byte at `fill / 8` of pattern memory. -/
theorem packed_byteAt (nib fill : Nat) (s : State) (x : Nat) :
    (packed nib fill s).byteAt .pattern x =
      if x = fill / 8 then packedByte nib fill (s.byteAt .pattern (fill / 8)) else s.byteAt .pattern x :=
  byteAt_putPattern s _ _ _

/-- Where a nibble is consumed: a bit was wanted, the byte exists, it is written, and the registers advance (R144,
R145). -/
theorem consumeNibble_ok {v : Nat} {s t : State} (h : consumeNibble v s = .ok t) :
    s.pfill.toNat < s.pbits.toNat ∧ s.pfill.toNat / 8 < s.patCap ∧
      t = advanceCompile (chunkWidth s) (chunkValue v (chunkWidth s))
        (packed (paddedChunk v (chunkWidth s)) s.pfill.toNat s) := by
  unfold consumeNibble at h
  split at h
  case isFalse => cases h
  case isTrue hlt =>
    refine ⟨hlt, ?_⟩
    rcases hp : packNibble (paddedChunk v (chunkWidth s)) s.pfill.toNat s with f | s'
    · simp [hp] at h
    · obtain ⟨hcap, rfl⟩ := writePattern_ok.mp (show writePattern _ _ s = .ok s' from hp)
      simp only [hp, Except.ok.injEq] at h
      exact ⟨hcap, h.symm⟩

end Sys2Proof.Machine
end

