-- ==== Sys2Proof/Laws/PerInstr.lean ====
section
/-! SUPPORT. Statements for all commands, one lemma per command. `EncodingFitsMap`: the word of a command that can be
assembled fits its row of the opcode map (30_encoding.md R94, columns `match` and
`mask`). -/

namespace Sys2Proof.Laws

/-- Format A's mask keeps `OP` and `B`. -/
theorem packFields_and_formatA (op a : Nat) (ha : a < 2 ^ 24) :
    packFields op 0 a &&& 0xFF000000#32 = packFields op 0 0 := by
  have h : ∀ w : Word, w &&& 0xFF000000#32 = (w >>> 24) <<< 24 := fun w => by
    ext i hi
    rw [BitVec.getElem_and]
    interval_cases i <;> simp
  rw [h]
  apply BitVec.eq_of_toNat_eq
  simp only [packFields, BitVec.toNat_shiftLeft, BitVec.toNat_ushiftRight, BitVec.toNat_ofNat, Nat.shiftLeft_eq,
    Nat.shiftRight_eq_div_pow]
  omega

/-- Format BA's mask keeps `OP`. -/
theorem packFields_and_formatBA (op b a : Nat) (hb : b < 2 ^ 4) (ha : a < 2 ^ 24) :
    packFields op b a &&& 0xF0000000#32 = packFields op 0 0 := by
  have h : ∀ w : Word, w &&& 0xF0000000#32 = (w >>> 28) <<< 28 := fun w => by
    ext i hi
    rw [BitVec.getElem_and]
    interval_cases i <;> simp
  rw [h]
  apply BitVec.eq_of_toNat_eq
  simp only [packFields, BitVec.toNat_shiftLeft, BitVec.toNat_ushiftRight, BitVec.toNat_ofNat, Nat.shiftLeft_eq,
    Nat.shiftRight_eq_div_pow]
  omega

/-- The word fits the row of the opcode map. -/
def EncodingFitsMap.Statement (i : Instr) : Prop :=
  i.wellFormed = true → encode i &&& i.matchMask.2 = i.matchMask.1

theorem EncodingFitsMap.nop : EncodingFitsMap.Statement .nop := fun _ => by decide
theorem EncodingFitsMap.haylen (bytes : Nat) : EncodingFitsMap.Statement (.haylen bytes) := fun h =>
  packFields_and_formatA 1 bytes (of_decide_eq_true h)
theorem EncodingFitsMap.patbegin (nbits : Nat) : EncodingFitsMap.Statement (.patbegin nbits) := fun h =>
  packFields_and_formatA 2 nbits (of_decide_eq_true h)
theorem EncodingFitsMap.patnib (v : Nat) : EncodingFitsMap.Statement (.patnib v) := fun h =>
  packFields_and_formatA 3 v (of_decide_eq_true h)
theorem EncodingFitsMap.scan : EncodingFitsMap.Statement .scan := fun _ => by decide
theorem EncodingFitsMap.matchAt (off : Nat) : EncodingFitsMap.Statement (.matchAt off) := fun h =>
  packFields_and_formatA 5 off (of_decide_eq_true h)
theorem EncodingFitsMap.exth (off cnt : Nat) : EncodingFitsMap.Statement (.exth off cnt) := fun h =>
  have h := (Bool.and_eq_true _ _).mp h
  packFields_and_formatBA 6 cnt off (of_decide_eq_true h.2) (of_decide_eq_true h.1)
theorem EncodingFitsMap.extp (off cnt : Nat) : EncodingFitsMap.Statement (.extp off cnt) := fun h =>
  have h := (Bool.and_eq_true _ _).mp h
  packFields_and_formatBA 7 cnt off (of_decide_eq_true h.2) (of_decide_eq_true h.1)
theorem EncodingFitsMap.rdreg (r : Nat) : EncodingFitsMap.Statement (.rdreg r) := fun h =>
  packFields_and_formatA 8 r (of_decide_eq_true h)
theorem EncodingFitsMap.clrerr : EncodingFitsMap.Statement .clrerr := fun _ => by decide
theorem EncodingFitsMap.sreset : EncodingFitsMap.Statement .sreset := fun _ => by decide
theorem EncodingFitsMap.winit : EncodingFitsMap.Statement .winit := fun _ => by decide
theorem EncodingFitsMap.wcheck : EncodingFitsMap.Statement .wcheck := fun _ => by decide
theorem EncodingFitsMap.wshift : EncodingFitsMap.Statement .wshift := fun _ => by decide

end Sys2Proof.Laws
end

