-- ==== Sys2Proof/Tests/Slice0.lean ====
section
/-! SUPPORT. The row's own tests: the WellFormed smoke test, words written from the spec's encodings, single commands on
small states with the results of the spec's worked examples, and a witness for every statement that has hypotheses. -/

namespace Sys2Proof.Machine.Tests

/-! ### WellFormed: an operand one past its field is refused (30_encoding.md R101) -/

theorem test_wf_haylen : (Instr.haylen 0x1000000).wellFormed = false := by decide
theorem test_wf_patbegin : (Instr.patbegin 0x1000000).wellFormed = false := by decide
theorem test_wf_patnib : (Instr.patnib 0x1000000).wellFormed = false := by decide
theorem test_wf_match : (Instr.matchAt 0x1000000).wellFormed = false := by decide
theorem test_wf_exth_off : (Instr.exth 0x1000000 1).wellFormed = false := by decide
theorem test_wf_exth_cnt : (Instr.exth 0 16).wellFormed = false := by decide
theorem test_wf_extp_off : (Instr.extp 0x1000000 1).wellFormed = false := by decide
theorem test_wf_extp_cnt : (Instr.extp 0 16).wellFormed = false := by decide
theorem test_wf_rdreg : (Instr.rdreg 0x1000000).wellFormed = false := by decide
theorem test_wf_top : (Instr.exth 0xFFFFFF 15).wellFormed = true := by decide

/-! ### Decode: each command's word, written from the table of 30_encoding.md R101 and R94, one field value above the
low byte where there is a field -/

theorem test_decode_nop : decode 0x00000000#32 = .ok .nop := by decide
theorem test_decode_haylen : decode 0x101FFFFF#32 = .ok (.haylen 2097151) := by decide
theorem test_decode_patbegin : decode 0x20001001#32 = .ok (.patbegin 4097) := by decide
theorem test_decode_patnib : decode 0x30000010#32 = .ok (.patnib 16) := by decide
theorem test_decode_scan : decode 0x40000000#32 = .ok .scan := by decide
theorem test_decode_match : decode 0x50FFFFFF#32 = .ok (.matchAt 16777215) := by decide
theorem test_decode_exth : decode 0x6F000111#32 = .ok (.exth 273 15) := by decide
theorem test_decode_extp : decode 0x7100000B#32 = .ok (.extp 11 1) := by decide
theorem test_decode_rdreg : decode 0x8000000D#32 = .ok (.rdreg 13) := by decide
theorem test_decode_clrerr : decode 0x90000000#32 = .ok .clrerr := by decide
theorem test_decode_sreset : decode 0xA0000000#32 = .ok .sreset := by decide
theorem test_decode_winit : decode 0xB0000000#32 = .ok .winit := by decide
theorem test_decode_wcheck : decode 0xC0000000#32 = .ok .wcheck := by decide
theorem test_decode_wshift : decode 0xD0000000#32 = .ok .wshift := by decide
theorem test_decode_reserved : decode 0xEFFFFFFF#32 = .error (.reservedOpcode 14) := by decide
theorem test_decode_unused_b : decode 0x31000010#32 = .error (.fieldNotZero 3) := by decide
theorem test_decode_unused_a : decode 0x40000001#32 = .error (.fieldNotZero 4) := by decide
theorem test_table_word : decodeTableWord 32 0x68000004 = some (.exth 4 8) := by decide

/-! ### States and readings for the tests -/

/-- Bytes at addresses 0, 1, 2, …. -/
def bytesFrom (bs : List Byte) : Memory := (List.range bs.length).zip bs

/-- Haystack memory holds `bs`, declared whole. -/
def withHaystack (bs : List Byte) : State :=
  { State.reset with hm := bytesFrom bs, hbytes := BitVec.ofNat 21 bs.length }

/-- A complete pattern of `n` bits with the hash, `rnum` and bytes that the spec's vectors give for it. -/
def withPattern (n hash r : Nat) (bs : List Byte) (s : State) : State :=
  { s with
    pstate := .ready, pbits := BitVec.ofNat 24 n, pfill := BitVec.ofNat 24 n, phash := BitVec.ofNat 8 hash,
    rnum := BitVec.ofNat 8 r, pcan := BitVec.ofNat 8 (167 - r), pm := bytesFrom bs }

/-- The window of hash `h` ending at `e`. -/
def withWindow (h e : Nat) (s : State) : State :=
  { s with wvalid := true, lhash := BitVec.ofNat 8 h, wend := BitVec.ofNat 24 e }

/-- `HM = AF`, `PATLOAD 4, F` (42_rolling_hash_scanner.md R167, R168). -/
def fOverAf : State := withPattern 4 15 8 [0xF0#8] (withHaystack [0xAF#8])
/-- The same with the first window, as `WINIT` leaves it. -/
def fOverAf0 : State := withWindow 10 4 fOverAf
/-- The same with the last window, where the pattern is. -/
def fOverAf4 : State := withWindow 15 8 fOverAf
/-- `HM = AA AA`, `PATLOAD 9, AA8` (43_exact_matcher.md R191). -/
def nineOverAa : State := withPattern 9 7 89 [0xAA#8, 0x80#8] (withHaystack [0xAA#8, 0xAA#8])
/-- `HM = A7`, `PATLOAD 8, 00`, the first window (42_rolling_hash_scanner.md R165). -/
def zeroOverA7 : State := withWindow 0 8 (withPattern 8 0 128 [0x00#8] (withHaystack [0xA7#8]))
/-- `HM = AF`, the empty pattern. -/
def emptyOverAf : State := withPattern 0 0 84 [] (withHaystack [0xAF#8])
/-- After `PATBEGIN 9`, `PATNIB 0xA`, `PATNIB 0xA` (41_pattern_compiler.md R144). -/
def loadingNine : State :=
  { State.reset with
    pstate := .loading, pbits := 9, pfill := 8, phash := 3, rnum := 128, pm := bytesFrom [0xAA#8] }

/-- The state after, where there is one. -/
def got : Result → Option State
  | .next t => some t
  | .fault _ => none
  | .refused _ => none

/-- The response word after. -/
def rspOf (r : Result) : Option Word := (got r).bind (·.rsp)

theorem got_next {r : Result} {p : State → Bool} (h : (got r).any p = true) : ∃ t, r = .next t ∧ p t = true := by
  cases r with
  | next t => exact ⟨t, rfl, by simpa [got] using h⟩
  | fault _ => cases h
  | refused _ => cases h

/-! ### Single commands; every result is the cited rule's own worked example or a vector of 95_test_vectors.md -/

theorem test_nop : got (exec .nop fOverAf0) = some { fOverAf0 with rsp := some 0x00000000#32 } := by decide
theorem test_haylen : (got (exec (.haylen 2) fOverAf4)).map (fun t => (t.hbytes, t.wvalid, t.lhash, t.rsp)) =
    some (2#21, false, 15#8, some 0x00000000#32) := by decide
theorem test_haylen_range : rspOf (exec (.haylen 0x200000) fOverAf) = some 0x40000000#32 := by decide
theorem test_patbegin : (got (exec (.patbegin 9) fOverAf4)).map
    (fun t => (t.pbits, t.pfill, t.phash, t.rnum, t.pcan, t.pstate)) =
    some (9#24, 0#24, 0#8, 84#8, 0#8, .loading) := by decide
theorem test_patbegin_capacity : rspOf (exec (.patbegin 65) { State.reset with patCap := 8 }) =
    some 0x50000000#32 := by decide
theorem test_patnib_last : (got (exec (.patnib 8) loadingNine)).map
    (fun t => (t.phash, t.rnum, t.pfill, t.pcan, t.pstate, t.byteAt .pattern 1)) =
    some (7#8, 89#8, 9#24, 78#8, .ready, 0x80#8) := by decide
theorem test_patnib_malformed : (got (exec (.patnib 16) loadingNine)).map (fun t => (t.pstate, t.err, t.rsp)) =
    some (.none, some .malformed, some 0x20000000#32) := by decide
theorem test_scan_found : (got (exec .scan fOverAf)).map
    (fun t => (t.rsp, t.verdict, t.moff, t.lhash, t.wend, t.wvalid)) =
    some (some 0x01000004#32, .found, 4#24, 15#8, 8#24, true) := by decide
theorem test_scan_false_positive : rspOf (exec .scan zeroOverA7) = some 0x02000000#32 := by decide
theorem test_match : rspOf (exec (.matchAt 2) nineOverAa) = some 0x03000001#32 := by decide
theorem test_match_range : rspOf (exec (.matchAt 8) nineOverAa) = some 0x40000000#32 := by decide
theorem test_exth : rspOf (exec (.exth 4 8) (withHaystack [0xAF#8, 0x35#8, 0xC0#8])) = some 0x030000F3#32 := by decide
theorem test_exth_range : rspOf (exec (.exth 17 8) (withHaystack [0xAF#8, 0x35#8, 0xC0#8])) =
    some 0x40000000#32 := by decide
theorem test_extp : rspOf (exec (.extp 1 8) nineOverAa) = some 0x03000055#32 := by decide
theorem test_extp_range : rspOf (exec (.extp 2 8) nineOverAa) = some 0x40000000#32 := by decide
theorem test_rdreg_rnum : rspOf (exec (.rdreg 8) State.reset) = some 0x03000054#32 := by decide
theorem test_rdreg_range : (got (exec (.rdreg 13) State.reset)).map (fun t => (t.err, t.rsp)) =
    some (some .range, some 0x40000000#32) := by decide
theorem test_clrerr : (got (exec .clrerr { loadingNine with err := some .range })).map (fun t => (t.err, t.pstate)) =
    some (none, .loading) := by decide
theorem test_sreset : (got (exec .sreset fOverAf4)).map (fun t => (statusValue t, t.rnum, t.pm)) =
    some (0, 84#8, bytesFrom [0xF0#8]) := by decide
theorem test_winit : (got (exec .winit fOverAf)).map (fun t => (t.lhash, t.wend, t.wvalid, t.rsp)) =
    some (10#8, 4#24, true, some 0x0300000A#32) := by decide
theorem test_wcheck_false_positive : rspOf (exec .wcheck zeroOverA7) = some 0x03000002#32 := by decide
theorem test_wcheck_match : rspOf (exec .wcheck fOverAf4) = some 0x03000003#32 := by decide
theorem test_wshift : (got (exec .wshift fOverAf0)).map (fun t => (t.lhash, t.wend, t.rsp)) =
    some (5#8, 5#24, some 0x03000005#32) := by decide
theorem test_wshift_last : rspOf (exec .wshift fOverAf4) = some 0x40000000#32 := by decide
theorem test_first_error_wins : (got (deliver 0xE0000000#32 { State.reset with err := some .malformed })).map
    (fun t => (t.err, t.rsp)) = some (some .malformed, some 0x10000000#32) := by decide
theorem test_step_after_reset : rspOf (step (State.reset.withFetchWord 32 0x80000000)) = some 0x03424D01#32 := by decide

/-! ### Witnesses: a state and operands that meet the hypotheses of each statement, one for each clause -/

/-- `HM = AF`, `PATLOAD 4, 0`: no occurrence. -/
def zeroOverAf : State := withPattern 4 0 8 [0x00#8] (withHaystack [0xAF#8])

theorem inv_fOverAf : Invariants fOverAf := by constructor <;> decide
theorem inv_fOverAf0 : Invariants fOverAf0 := by constructor <;> decide
theorem inv_fOverAf4 : Invariants fOverAf4 := by constructor <;> decide
theorem inv_emptyOverAf : Invariants emptyOverAf := by constructor <;> decide
theorem inv_zeroOverAf : Invariants zeroOverAf := by constructor <;> decide
theorem inv_loadingNine : Invariants loadingNine := by constructor <;> decide
theorem fresh_fOverAf0 : fOverAf0.windowFresh := fun _ => by decide
theorem fresh_fOverAf4 : fOverAf4.windowFresh := fun _ => by decide

theorem witness_DecodeOfEncodeIsTheCommand : (Instr.extp 0xFFFFFF 15).wellFormed = true := by decide
theorem witness_EncodeOfDecodeIsTheWord : decode 0x7FFFFFFF#32 = .ok (.extp 0xFFFFFF 15) := by decide
theorem witness_DecodeFollowsTheOpcodeMap :
    decode 0x1000FFFF#32 = .ok (.haylen 0xFFFF) ∧
    0x1000FFFF#32 &&& (Instr.haylen 0).matchMask.2 = (Instr.haylen 0).matchMask.1 := by decide
theorem witness_IllegalWordsRaiseIllegal :
    0xE ≤ opField 0xE0000000#32 ∧
    (opField 0xD8000000#32 = 0xD ∧ bField 0xD8000000#32 ≠ 0) ∧ (opField 0x00000001#32 = 0 ∧ aField 0x00000001#32 ≠ 0) ∧
    (opField 0x81000000#32 = 8 ∧ bField 0x81000000#32 ≠ 0) ∧ opField 0x6FFFFFFF#32 = 6 ∧ opField 0x70000000#32 = 7 ∧
    decode 0#32 = .ok .nop := by decide
theorem witness_StepRunsTheDeliveredCommand :
    State.reset.host = [] ∧
    ({ State.reset with host := [.send 0x40000000#32] } : State).host = .send 0x40000000#32 :: [] ∧
    decode 0x40000000#32 = .ok .scan ∧ decode 0x40000001#32 = .error (.fieldNotZero 4) ∧
    decodeTableWord 32 0x40000000 = some .scan := by decide
theorem witness_ResponseWordLayout : (15 : Nat) < 16 := by decide
/-- The last field of the haystack, ending at its last bit; a field inside one byte and one across two. -/
theorem witness_ExtractIsTheBitString :
    (1 ≤ 8 ∧ 8 ≤ 8 ∧ 8 + 8 ≤ nineOverAa.spaceBits .haystack) ∧ (8 + 8 - 1) / 8 < nineOverAa.spaceBytes .haystack ∧
    (1 ≤ 1 ∧ 8 + 1 ≤ nineOverAa.spaceBits .pattern) ∧ (8 + 1 - 1) / 8 < nineOverAa.spaceBytes .pattern := by decide
theorem witness_ExtractLaws :
    (∃ v, extract nineOverAa .haystack 5 3 = .ok v) ∧ (∃ v, extract nineOverAa .pattern 8 1 = .ok v) ∧
    (∃ v, extract nineOverAa .haystack (8 * 1) 8 = .ok v) ∧
    (∃ v u, extract nineOverAa .haystack 7 1 = .ok v ∧ extract nineOverAa .haystack (7 + 1) 7 = .ok u) ∧
    (∃ v u, extract nineOverAa .haystack 2 8 = .ok v ∧ extract nineOverAa .pattern 0 8 = .ok u ∧
      ∀ i < 8, nineOverAa.bitAt .haystack (2 + i) = nineOverAa.bitAt .pattern (0 + i)) :=
  ⟨⟨2, by rfl⟩, ⟨1, by rfl⟩, ⟨0xAA, by rfl⟩, ⟨0, 0x55, by rfl, by rfl⟩, ⟨0xAA, 0xAA, by rfl, by rfl, by decide⟩⟩
theorem witness_ExtractReadsOnlyItsBytes :
    (1 ≤ 2 ∧ 2 ≤ 8 ∧ 7 + 2 ≤ nineOverAa.spaceBits .haystack ∧ 8 < 7 % 8 + 2) ∧ ¬ 8 < 8 % 8 + 8 := by decide
theorem witness_ExtpReturnsTheBits : ceil8 nineOverAa.pbits.toNat ≤ nineOverAa.patCap := by decide
theorem witness_RnumOverChunks : 1 ≤ [1].sum := by decide
theorem witness_PatnibConsumesANibble :
    State.reset.pstate ≠ .loading ∧ loadingNine.pstate = .loading ∧ 16 ≤ 16 ∧ 15 < 16 ∧
    loadingNine.pfill.toNat < loadingNine.pbits.toNat ∧ loadingNine.pfill.toNat / 8 < loadingNine.patCap := by decide
theorem witness_PatloadCompilesThePattern :
    (9 < 2 ^ 24 ∧ ceil8 9 ≤ State.reset.patCap ∧ [10, 10, 8].length = (9 + 3) / 4 ∧ ∀ d ∈ [10, 10, 8], d < 16) ∧
    (ceil8 0 ≤ State.reset.patCap ∧ ([] : List Nat).length = (0 + 3) / 4) ∧ 92 % 83 = 9 % 83 := by decide
theorem witness_ShortCompileStaysLoading :
    1 < 2 ^ 24 ∧ ceil8 1 ≤ State.reset.patCap ∧ ([] : List Nat).length < (1 + 3) / 4 ∧
    [10, 10].length < (9 + 3) / 4 ∧ ∀ d ∈ [10, 10], d < 16 := by decide
theorem witness_WcheckReportsHitAndMatch :
    loadingNine.pstate ≠ .ready ∧ fOverAf.wvalid = false ∧
    (fOverAf4.pstate = .ready ∧ fOverAf4.wvalid = true ∧ fOverAf4.pbits.toNat ≤ fOverAf4.wend.toNat ∧
      fOverAf4.wend.toNat ≤ 8 * fOverAf4.hbytes.toNat ∧ ceil8 fOverAf4.pbits.toNat ≤ fOverAf4.patCap) := by decide
theorem witness_WshiftCancelsThenFolds :
    fOverAf.wvalid = false ∧
    (fOverAf0.pstate = .ready ∧ fOverAf0.wvalid = true ∧ fOverAf0.pbits.toNat ≤ fOverAf0.wend.toNat ∧
      ¬ 8 * fOverAf0.hbytes.toNat ≤ fOverAf0.wend.toNat) ∧
    8 * fOverAf4.hbytes.toNat ≤ fOverAf4.wend.toNat := by decide
theorem witness_ShiftKeepsTheWindowHash :
    Invariants fOverAf0 ∧ fOverAf0.wvalid = true ∧ fOverAf0.windowFresh ∧ fOverAf0.wend.toNat < fOverAf0.hayBits :=
  ⟨inv_fOverAf0, rfl, fresh_fOverAf0, by decide⟩
theorem witness_WindowWalk : Invariants fOverAf ∧ fOverAf.pstate = .ready ∧ fOverAf.pbits.toNat + 4 ≤ fOverAf.hayBits :=
  ⟨inv_fOverAf, rfl, by decide⟩
theorem witness_ScanFindsTheFirstMatch :
    (Invariants emptyOverAf ∧ emptyOverAf.pstate = .ready ∧ emptyOverAf.pbits = 0) ∧
    (Invariants fOverAf ∧ fOverAf.pstate = .ready ∧ 4 + fOverAf.pbits.toNat ≤ 8 * fOverAf.hbytes.toNat ∧
      fOverAf.occursAt 4 ∧ ∀ o < 4, ¬ fOverAf.occursAt o) ∧
    (Invariants zeroOverAf ∧ zeroOverAf.pstate = .ready ∧ zeroOverAf.pbits ≠ 0 ∧
      ∀ off, off + zeroOverAf.pbits.toNat ≤ 8 * zeroOverAf.hbytes.toNat → ¬ zeroOverAf.occursAt off) := by
  refine ⟨⟨inv_emptyOverAf, rfl, rfl⟩, ⟨inv_fOverAf, rfl, by decide, by decide, by decide⟩,
    ⟨inv_zeroOverAf, rfl, by decide, fun off h => ?_⟩⟩
  have key : ∀ o < 5, ¬ zeroOverAf.occursAt o := by decide
  exact key off (by change off + 4 ≤ 8 at h; omega)
theorem witness_ScanLeavesTheWindow :
    (Invariants emptyOverAf ∧ emptyOverAf.pbits = 0 ∧ ∃ t, exec .scan emptyOverAf = .next t) ∧
    (Invariants fOverAf ∧ fOverAf.pbits ≠ 0 ∧ fOverAf.pbits.toNat ≤ fOverAf.hayBits ∧
      ∃ t, exec .scan fOverAf = .next t ∧ decide (t.verdict = .found) = true) ∧
    (Invariants zeroOverAf ∧ ∃ t, exec .scan zeroOverAf = .next t ∧ decide (t.verdict = .notFound) = true) :=
  ⟨⟨inv_emptyOverAf, rfl, _, rfl⟩, ⟨inv_fOverAf, by decide, by decide, got_next (by decide)⟩,
    ⟨inv_zeroOverAf, got_next (by decide)⟩⟩
theorem witness_ScanIsRepeatable :
    (∃ t, exec .scan fOverAf = .next t ∧ decide (t.verdict = .found) = true) ∧
    (∃ t, exec (.haylen 2) fOverAf = .next t ∧ decide (t.hbytes = 2) = true) ∧
    (∃ t, exec (.patbegin 9) fOverAf = .next t ∧ decide (t.pbits = 9) = true) :=
  ⟨got_next (by decide), got_next (by decide), got_next (by decide)⟩
theorem witness_FoundIsNeverFalse :
    (fOverAf.pstate = .ready ∧ ∃ t, exec .scan fOverAf = .next t ∧ decide (t.verdict = .found) = true) ∧
    (∃ t, exec .wcheck fOverAf4 = .next t ∧ decide (t.rsp = some (responseWord 0 .value 3#24)) = true) :=
  ⟨⟨rfl, got_next (by decide)⟩, got_next (by decide)⟩
theorem witness_EqualBitsGiveEqualHashes :
    Invariants fOverAf4 ∧ fOverAf4.wvalid = true ∧ fOverAf4.windowFresh ∧
    fOverAf4.occursAt (fOverAf4.wend.toNat - fOverAf4.pbits.toNat) :=
  ⟨inv_fOverAf4, rfl, fresh_fOverAf4, by decide⟩
theorem witness_MatchComparesTheBits : ceil8 nineOverAa.pbits.toNat ≤ nineOverAa.patCap := by decide
/-- The pad bits of the pattern byte are set. -/
theorem witness_PadBitsNeverMatter :
    isPatnib .scan = false ∧
    (∀ k < fOverAf.pbits.toNat, ({ fOverAf with pm := bytesFrom [0xF9#8] } : State).bitAt .pattern k =
      fOverAf.bitAt .pattern k) ∧
    ∃ t, exec .scan fOverAf = .next t ∧ decide (t.verdict = .found) = true :=
  ⟨rfl, by decide, got_next (by decide)⟩
theorem witness_CommandsFollowTheErrorTable :
    Invariants fOverAf ∧ illegalWord 0xE0000000#32 = true ∧ illegalWord 0x50000005#32 = false ∧
    decode 0x50000005#32 = .ok (.matchAt 5) ∧ errorOf fOverAf (.matchAt 5) = some .range ∧
    errorOf fOverAf (.matchAt 4) = none ∧ errorOf loadingNine (.patnib 16) = some .malformed :=
  ⟨inv_fOverAf, by decide, by decide, by decide, by decide, by decide, by decide⟩
theorem witness_ErrIsStickyAndBlocksNothing :
    (∃ t, exec .scan State.reset = .next t ∧
      decide (t.rsp = some (errorWord .state) ∧ t.err ≠ State.reset.err) = true) ∧
    (∃ t, exec .clrerr { State.reset with err := some .range } = .next t ∧ decide (t.err ≠ some .range) = true) ∧
    Instr.clrerr ≠ .rdreg 2 :=
  ⟨got_next (by decide), got_next (by decide), by decide⟩
theorem witness_RegistersWrittenOnlyByTheirCommands :
    (∃ t, exec .wshift fOverAf0 = .next t ∧ decide (t.reg 9 ≠ fOverAf0.reg 9) = true) ∧
    (∃ t, exec .wshift fOverAf4 = .next t ∧ decide (t.reg 2 ≠ fOverAf4.reg 2) = true) :=
  ⟨got_next (by decide), got_next (by decide)⟩
theorem witness_CommandsWriteOneByteAtMost :
    (∃ t, exec (.patnib 8) loadingNine = .next t ∧ decide (t.pfill = 9) = true) ∧
    storedAt loadingNine (.patnib 8) = some 1 ∧ storedAt loadingNine (.patnib 8) ≠ some 0 ∧ isPatnib .scan = false ∧
    ∃ t, exec .scan fOverAf = .next t ∧ decide (t.verdict = .found) = true :=
  ⟨got_next (by decide), by decide, by decide, rfl, got_next (by decide)⟩
theorem witness_ReadyPatternIsImmutable :
    fOverAf0.pstate = .ready ∧ (∃ t, exec .wshift fOverAf0 = .next t ∧ decide (t.wend = 5) = true) ∧
    (∀ n, Instr.wshift ≠ .patbegin n) ∧ Instr.wshift ≠ .sreset :=
  ⟨rfl, got_next (by decide), fun _ h => Instr.noConfusion h, by decide⟩
theorem witness_PstateTransitions :
    ∃ t, exec (.patnib 8) loadingNine = .next t ∧ decide (t.pstate = .ready) = true := got_next (by decide)
theorem witness_WvalidTransitions :
    ∃ t, exec .winit fOverAf = .next t ∧ decide (t.wvalid = true) = true := got_next (by decide)
theorem witness_HardResetRestoresTheRegisters :
    ({ fOverAf with host := [.reset] } : State).host = .reset :: [] := rfl
theorem witness_ResetValues :
    ∃ t, exec .sreset fOverAf = .next t ∧ decide (t.pstate = .none) = true := got_next (by decide)
/-- A byte that the dropped command changes, whatever the free value is. -/
theorem witness_DroppedCommandLeavesResetRegisters :
    let s : State := { loadingNine with
      pm := [(1, Config.droppedByte 0 + 1#8)], host := [.sendReset 0x30000008#32] }
    s.host = .sendReset 0x30000008#32 :: [] ∧
    ∃ t, step s = .next t ∧ t.byteAt .pattern 1 ≠ s.byteAt .pattern 1 := by
  refine ⟨rfl, _, rfl, ?_⟩
  change Config.droppedByte 0 ≠ Config.droppedByte 0 + 1#8
  generalize Config.droppedByte 0 = b
  revert b
  decide
theorem witness_HostWriteChangesOneHaystackByte :
    ({ fOverAf with host := [.write 0 0xFF#8] } : State).host = .write 0 0xFF#8 :: [] := rfl
theorem witness_InvAfterReset : Config.patCapMin ≤ 8 ∧ 8 ≤ Config.patCapMax ∧ 2 ^ 21 ≤ Config.patCapMax := by decide
theorem witness_StepKeepsInv :
    Invariants { fOverAf0 with host := [.send 0xD0000000#32] } ∧
    ∃ t, step { fOverAf0 with host := [.send 0xD0000000#32] } = .next t ∧ decide (t.wend = 5) = true :=
  ⟨by constructor <;> decide, got_next (by decide)⟩
theorem witness_InvOnEveryRun :
    Config.patCapMin ≤ 8 ∧ 8 ≤ Config.patCapMax ∧
    ∃ t, Host.Core.run core 1 (State.powerUp 8 [.send 0x20000040#32]) = .next t := ⟨by decide, by decide, _, rfl⟩
theorem witness_StepNeverStops : Invariants loadingNine := inv_loadingNine
theorem witness_EveryWordGetsAResponse : Invariants fOverAf4 := inv_fOverAf4
theorem witness_CommandsKeepTheWindowHash :
    Invariants fOverAf0 ∧ fOverAf0.windowFresh ∧
    ∃ t, deliver 0xD0000000#32 fOverAf0 = .next t ∧ decide (t.wend = 5) = true :=
  ⟨inv_fOverAf0, fresh_fOverAf0, got_next (by decide)⟩

end Sys2Proof.Machine.Tests
end

section
/-! PROOFS. The port (00_scope.md R4, R5; 30_encoding.md R97): what one step does with each move that delivers a word,
and that a delivered word runs as the command it decodes to. -/

namespace Sys2Proof.Machine

/-- A table word decodes to what the 32-bit word on the port decodes to. -/
theorem decodeTableWord_eq_some {nbits w : Nat} {i : Instr} :
    decodeTableWord nbits w = some i ↔ decode (BitVec.ofNat 32 (w % 2 ^ nbits)) = .ok i := by
  unfold decodeTableWord
  cases decode (BitVec.ofNat 32 (w % 2 ^ nbits)) <;> simp

theorem deliver_of_decode_ok {w : Word} {i : Instr} (h : decode w = .ok i) (s : State) :
    deliver w s = exec i s := by
  simp only [deliver, h]

theorem deliver_of_decode_error {w : Word} {e : Illegal} (h : decode w = .error e) (s : State) :
    deliver w s = raise .illegal s := by
  simp only [deliver, h]

/-- With no move pending the block idles (60_exceptions.md R229). -/
theorem step_of_host_nil {s : State} (h : s.host = []) : step s = .next s := by
  simp only [step, h]

theorem step_of_host_send {s : State} {w : Word} {rest : List HostMove} (h : s.host = .send w :: rest) :
    step s = deliver w { s with host := rest } := by
  simp only [step, h, hostMove]

/-- The word that `withFetchWord` places is delivered to the state it was placed on. -/
theorem step_withFetchWord (s : State) (nbits w : Nat) :
    step (s.withFetchWord nbits w) = deliver (BitVec.ofNat 32 (w % 2 ^ nbits)) s :=
  step_of_host_send rfl

/-- Settles O6: one clause for each way the host's queue can begin, then the word placed by `withFetchWord`. -/
theorem stepRunsTheDeliveredCommand : Obligations.StepRunsTheDeliveredCommand := by
  intro s
  refine ⟨step_of_host_nil, ?_, ?_, ?_⟩
  · intro w rest i hhost hdec
    rw [step_of_host_send hhost, deliver_of_decode_ok hdec]
  · intro w rest e hhost hdec
    rw [step_of_host_send hhost, deliver_of_decode_error hdec, raise]
  · intro nbits w i hdec
    rw [step_withFetchWord, deliver_of_decode_ok (decodeTableWord_eq_some.mp hdec)]

end Sys2Proof.Machine
end

section
/-! PROOFS. Where the partial operations answer. Each reads only inside its memory (20_memory.md R70) and calls the
accessor only inside its domain (40_bitfield_accessor.md R125) as soon as the bounds that its caller checks hold, so
none of the four faults is met. These are the converses of the `_ok` lemmas of Laws/Ops. -/

namespace Sys2Proof.Machine

variable {s : State}

/-- A position of the haystack fits the 24 bits of `WEND`. -/
theorem hayBits_lt (s : State) : s.hayBits < 2 ^ 24 := by
  have := s.hbytes.isLt
  unfold State.hayBits
  omega

/-- The byte of a bit is among the bytes that hold the string. -/
theorem div_eight_lt_ceil8 {k n : Nat} (h : k < n) : k / 8 < ceil8 n := by
  unfold ceil8
  omega

theorem badField_eq_false {off cnt bits : Nat} :
    badField off cnt bits = false ↔ 1 ≤ cnt ∧ cnt ≤ 8 ∧ off + cnt ≤ bits := by
  simp only [badField, decide_eq_false_iff_not]
  omega

theorem noWindow_eq_false : noWindow s = false ↔ s.pstate = .ready ∧ s.wvalid = true := by
  simp [noWindow]

/-! ### The accessor -/

theorem extract_haystack_answers {off c : Nat} (h : 1 ≤ c ∧ c ≤ 8 ∧ off + c ≤ s.hayBits) :
    ∃ v, extract s .haystack off c = .ok v := by
  refine extract_answers h ?_
  simp only [State.hayBits] at h
  simp only [State.spaceBytes]
  omega

theorem extract_pattern_answers {off c : Nat} (hcap : ceil8 s.pbits.toNat ≤ s.patCap)
    (h : 1 ≤ c ∧ c ≤ 8 ∧ off + c ≤ s.pbits.toNat) : ∃ v, extract s .pattern off c = .ok v := by
  have hlast : (off + c - 1) / 8 < ceil8 s.pbits.toNat := div_eight_lt_ceil8 (by omega)
  exact extract_answers h (hlast.trans_le hcap)

/-! ### The loops over chunks -/

theorem hashChunks_answers {n : Nat} (hn : n ≤ s.hayBits) (fuel j h : Nat) :
    ∃ h', hashChunks s n fuel j h = .ok h' := by
  induction fuel generalizing j h with
  | zero => exact ⟨h, rfl⟩
  | succ fuel ih =>
    unfold hashChunks
    split
    case isTrue hj =>
      obtain ⟨v, hv⟩ := extract_haystack_answers (s := s) (off := j) (c := min 8 (n - j)) (by omega)
      simpa only [hv] using ih _ _
    case isFalse => exact ⟨h, rfl⟩

theorem hashInit_answers (h : s.pbits.toNat ≤ s.hayBits) : ∃ v, hashInit s = .ok v :=
  hashChunks_answers h _ _ _

theorem matchChunks_answers {start n : Nat} (hcap : ceil8 s.pbits.toNat ≤ s.patCap) (hn : n ≤ s.pbits.toNat)
    (hstart : start + n ≤ s.hayBits) (fuel j : Nat) : ∃ m, matchChunks s start n fuel j = .ok m := by
  induction fuel generalizing j with
  | zero => exact ⟨true, rfl⟩
  | succ fuel ih =>
    unfold matchChunks
    split
    case isTrue hj =>
      obtain ⟨v, hv⟩ := extract_haystack_answers (s := s) (off := start + j) (c := min 8 (n - j)) (by omega)
      obtain ⟨p, hp⟩ := extract_pattern_answers (off := j) (c := min 8 (n - j)) hcap (by omega)
      simp only [hv, hp]
      split
      · exact ih _
      · exact ⟨false, rfl⟩
    case isFalse => exact ⟨true, rfl⟩

theorem patternMatches_answers {start : Nat} (hcap : ceil8 s.pbits.toNat ≤ s.patCap)
    (hstart : start + s.pbits.toNat ≤ s.hayBits) : ∃ m, patternMatches s start = .ok m :=
  matchChunks_answers hcap le_rfl hstart _ _

/-! ### The window -/

/-- The window lies in the haystack and the pattern in its memory: what the reads of `check()` and `shift()` need of
I2 and I8 (10_state.md R42). -/
structure WindowInside (s : State) : Prop where
  /-- The window starts at or after offset 0. -/
  start : s.pbits.toNat ≤ s.wend.toNat
  /-- It ends at or before the end of the haystack. -/
  stop : s.wend.toNat ≤ s.hayBits
  /-- The pattern's bytes exist. -/
  stored : ceil8 s.pbits.toNat ≤ s.patCap

/-- A valid window of a state with the invariants is inside (I2, I8). -/
theorem Invariants.windowInside (inv : Invariants s) (hvalid : s.wvalid = true) : WindowInside s := by
  obtain ⟨-, hstart, hstop⟩ := inv.window hvalid
  exact ⟨hstart, hstop, inv.fill.2⟩

/-- The first window is inside where the pattern is no longer than the haystack. -/
theorem windowInside_openWindow (h : Nat) (hcap : ceil8 s.pbits.toNat ≤ s.patCap)
    (hlen : s.pbits.toNat ≤ s.hayBits) : WindowInside (openWindow h s) :=
  ⟨le_rfl, hlen, hcap⟩

/-- Moving the window advances `WEND` by one without wrapping, as long as haystack is left. -/
theorem moveWindow_wend_toNat (h : Nat) (hlt : s.wend.toNat < s.hayBits) :
    (moveWindow h s).wend.toNat = s.wend.toNat + 1 := by
  have := hayBits_lt s
  rw [moveWindow_wend, BitVec.toNat_ofNat, Nat.mod_eq_of_lt (by omega)]

/-- A window that is inside and not the last one stays inside when it moves. -/
theorem WindowInside.moveWindow (hw : WindowInside s) (h : Nat) (hlt : s.wend.toNat < s.hayBits) :
    WindowInside (moveWindow h s) := by
  have hwend := moveWindow_wend_toNat h hlt
  obtain ⟨hstart, -, hcap⟩ := hw
  refine ⟨?_, ?_, hcap⟩
  · rw [hwend, moveWindow_pbits]
    omega
  · rw [hwend, moveWindow_hayBits]
    omega

theorem checkWindow_answers (hw : WindowInside s) : ∃ c, checkWindow s = .ok c := by
  obtain ⟨hstart, hstop, hcap⟩ := hw
  obtain ⟨m, hm⟩ := patternMatches_answers (start := s.wend.toNat - s.pbits.toNat) hcap (by omega)
  simp only [checkWindow, windowStart_ok.mpr ⟨hstart, rfl⟩, hm]
  split
  · exact ⟨_, rfl⟩
  · exact ⟨_, rfl⟩

theorem shiftWindow_answers (hw : WindowInside s) (hlt : s.wend.toNat < s.hayBits) :
    ∃ t, shiftWindow s = .ok t := by
  obtain ⟨out, hout⟩ := extract_haystack_answers (s := s) (off := s.wend.toNat - s.pbits.toNat) (c := 1) (by omega)
  obtain ⟨inc, hinc⟩ := extract_haystack_answers (s := s) (off := s.wend.toNat) (c := 1) (by omega)
  simp only [shiftWindow, windowStart_ok.mpr ⟨hw.start, rfl⟩, hout, hinc]
  exact ⟨_, rfl⟩

/-! ### The compiler -/

/-- While a bit is wanted, the byte that takes it exists (I2). -/
theorem consumeNibble_answers (v : Nat) (hfill : s.pfill.toNat < s.pbits.toNat)
    (hcap : ceil8 s.pbits.toNat ≤ s.patCap) : ∃ t, consumeNibble v s = .ok t := by
  have hbyte : s.pfill.toNat / 8 < s.patCap := (div_eight_lt_ceil8 hfill).trans_le hcap
  simp only [consumeNibble, if_pos hfill, packNibble, writePattern_ok.mpr ⟨hbyte, rfl⟩]
  exact ⟨_, rfl⟩

end Sys2Proof.Machine
end

section
/-! PROOFS. Every command word gets a response (00_scope.md R5): one lemma for each way a command ends, one for each
command that reads memory, then the dispatch. -/

namespace Sys2Proof.Machine

/-- The response words of 30_encoding.md R99 and R100: an error's, or a success with `VAL` 0 for the kinds `NONE` and
`NOT_FOUND`. -/
def IsResponse (r : Word) : Prop :=
  (∃ e : Err, r = errorWord e) ∨ ∃ k val, r = responseWord 0 k val ∧ (k = .none ∨ k = .notFound → val = 0)

/-- The command ends with a response. -/
def Responds (x : Result) : Prop :=
  ∃ t r, x = .next t ∧ t.rsp = some r ∧ IsResponse r

variable {s : State}

/-! ### The ends of a command -/

theorem raise_responds (e : Err) (s : State) : Responds (raise e s) :=
  ⟨_, _, rfl, afterError_rsp s e, .inl ⟨e, rfl⟩⟩

theorem respond_responds {k : Kind} {val : BitVec 24} (h : k = .none ∨ k = .notFound → val = 0) (s : State) :
    Responds (respond k val s) :=
  ⟨_, _, rfl, offer_rsp s _, .inr ⟨k, val, rfl, h⟩⟩

theorem respond_none_responds (s : State) : Responds (respond .none 0 s) :=
  respond_responds (fun _ => rfl) s

theorem respond_value_responds (val : BitVec 24) (s : State) : Responds (respond .value val s) :=
  respond_responds (by simp) s

theorem scanFound_responds (off : Nat) (s : State) : Responds (scanFound off s) :=
  respond_responds (by simp) _

theorem scanNotFound_responds (s : State) : Responds (scanNotFound s) :=
  respond_responds (fun _ => rfl) _

/-- A command responds if the partial operation it begins with answers and it responds to that answer. -/
theorem andThen_responds {α : Type} {x : Except Fault α} {k : α → Result} (hx : ∃ a, x = .ok a)
    (hk : ∀ a, x = .ok a → Responds (k a)) : Responds (andThen x k) := by
  obtain ⟨a, rfl⟩ := hx
  exact hk a rfl

/-! ### The commands -/

theorem execHaylen_responds (bytes : Nat) (s : State) : Responds (execHaylen bytes s) := by
  unfold execHaylen
  split
  · exact raise_responds _ _
  · exact respond_none_responds _

theorem execPatbegin_responds (nbits : Nat) (s : State) : Responds (execPatbegin nbits s) := by
  unfold execPatbegin
  split
  · exact raise_responds _ _
  · exact respond_none_responds _

/-- While loading a bit is wanted (I4). -/
theorem execPatnib_responds (inv : Invariants s) (v : Nat) : Responds (execPatnib v s) := by
  unfold execPatnib
  split_ifs with hstate
  · exact raise_responds _ _
  · exact raise_responds _ _
  · obtain ⟨-, hfill, -⟩ := inv.loading (not_not.mp hstate)
    exact andThen_responds (consumeNibble_answers v hfill inv.fill.2) fun _ _ => respond_none_responds _

theorem execMatch_responds (inv : Invariants s) (off : Nat) : Responds (execMatch off s) := by
  unfold execMatch
  split_ifs with hstate hrange
  · exact raise_responds _ _
  · exact raise_responds _ _
  · exact andThen_responds (patternMatches_answers inv.fill.2 (not_lt.mp hrange)) fun _ _ =>
      respond_value_responds _ _

theorem execExth_responds (off cnt : Nat) (s : State) : Responds (execExth off cnt s) := by
  unfold execExth
  split_ifs with hbad
  · exact raise_responds _ _
  · have hfield := badField_eq_false.mp (Bool.eq_false_of_not_eq_true hbad)
    exact andThen_responds (extract_haystack_answers hfield) fun _ _ => respond_value_responds _ _

theorem execExtp_responds (inv : Invariants s) (off cnt : Nat) : Responds (execExtp off cnt s) := by
  unfold execExtp
  split_ifs with hstate hbad
  · exact raise_responds _ _
  · exact raise_responds _ _
  · have hfield := badField_eq_false.mp (Bool.eq_false_of_not_eq_true hbad)
    exact andThen_responds (extract_pattern_answers inv.fill.2 hfield) fun _ _ => respond_value_responds _ _

theorem execRdreg_responds (r : Nat) (s : State) : Responds (execRdreg r s) := by
  unfold execRdreg
  split
  · exact respond_value_responds _ _
  · exact raise_responds _ _

theorem execWinit_responds (s : State) : Responds (execWinit s) := by
  unfold execWinit
  split_ifs with hstate hlen
  · exact raise_responds _ _
  · exact raise_responds _ _
  · exact andThen_responds (hashInit_answers (not_lt.mp hlen)) fun _ _ => respond_value_responds _ _

theorem execWcheck_responds (inv : Invariants s) : Responds (execWcheck s) := by
  unfold execWcheck
  split_ifs with hno
  · exact raise_responds _ _
  · obtain ⟨-, hvalid⟩ := noWindow_eq_false.mp (Bool.eq_false_of_not_eq_true hno)
    exact andThen_responds (checkWindow_answers (inv.windowInside hvalid)) fun _ _ => respond_value_responds _ _

theorem execWshift_responds (inv : Invariants s) : Responds (execWshift s) := by
  unfold execWshift
  split_ifs with hno hend
  · exact raise_responds _ _
  · exact raise_responds _ _
  · obtain ⟨-, hvalid⟩ := noWindow_eq_false.mp (Bool.eq_false_of_not_eq_true hno)
    exact andThen_responds (shiftWindow_answers (inv.windowInside hvalid) (not_le.mp hend)) fun _ _ =>
      respond_value_responds _ _

/-- The loop ends with a verdict: `k` counts the shifts left until the window is the last one, so each shift finds its
bits and the window stays inside. -/
theorem scanLoop_responds {k : Nat} (hw : WindowInside s) (hk : s.wend.toNat + k = s.hayBits) :
    Responds (scanLoop k s) := by
  induction k generalizing s with
  | zero =>
    refine andThen_responds (checkWindow_answers hw) fun c _ => ?_
    split
    · exact scanFound_responds _ _
    · exact scanNotFound_responds _
  | succ k ih =>
    refine andThen_responds (checkWindow_answers hw) fun c _ => ?_
    split
    · exact scanFound_responds _ _
    · have hlt : s.wend.toNat < s.hayBits := by omega
      refine andThen_responds (shiftWindow_answers hw hlt) fun t ht => ?_
      obtain ⟨-, out, inc, -, -, rfl⟩ := shiftWindow_ok ht
      refine ih (hw.moveWindow _ hlt) ?_
      rw [moveWindow_wend_toNat _ hlt, moveWindow_hayBits]
      omega

theorem execScan_responds (inv : Invariants s) : Responds (execScan s) := by
  unfold execScan
  split_ifs with hstate hempty hlen
  · exact raise_responds _ _
  · exact scanFound_responds _ _
  · exact scanNotFound_responds _
  · have hle : s.pbits.toNat ≤ s.hayBits := not_lt.mp hlen
    refine andThen_responds (hashInit_answers hle) fun h _ => ?_
    refine scanLoop_responds (windowInside_openWindow h inv.fill.2 hle) ?_
    rw [openWindow_wend, openWindow_hayBits]
    omega

/-! ### The port -/

theorem exec_responds (inv : Invariants s) (i : Instr) : Responds (exec i s) := by
  cases i with
  | nop => exact respond_none_responds _
  | haylen bytes => exact execHaylen_responds bytes s
  | patbegin nbits => exact execPatbegin_responds nbits s
  | patnib v => exact execPatnib_responds inv v
  | scan => exact execScan_responds inv
  | matchAt off => exact execMatch_responds inv off
  | exth off cnt => exact execExth_responds off cnt s
  | extp off cnt => exact execExtp_responds inv off cnt
  | rdreg r => exact execRdreg_responds r s
  | clrerr => exact respond_none_responds _
  | sreset => exact respond_none_responds _
  | winit => exact execWinit_responds s
  | wcheck => exact execWcheck_responds inv
  | wshift => exact execWshift_responds inv

theorem deliver_responds (inv : Invariants s) (w : Word) : Responds (deliver w s) := by
  cases hdec : decode w with
  | ok i =>
    rw [deliver_of_decode_ok hdec]
    exact exec_responds inv i
  | error e =>
    rw [deliver_of_decode_error hdec]
    exact raise_responds _ _

/-- Settles O52: an illegal word raises `E_ILLEGAL`, and every command responds in a state with the invariants. -/
theorem everyWordGetsAResponse : Obligations.EveryWordGetsAResponse :=
  fun w _ inv => deliver_responds inv w

end Sys2Proof.Machine
end

section
/-! PROOFS. What a command can do: every command that completes fails with an error of the table or has one of the
effects listed here (60_exceptions.md R221, R223). Frames, transitions and invariants are read off this list. -/

namespace Sys2Proof.Machine

variable {s t u : State} {i : Instr}

/-! ### The ends of a command -/

theorem raise_next {e : Err} : raise e s = .next t ↔ t = afterError e s := by
  simp [raise, eq_comm]

theorem respond_next {k : Kind} {val : BitVec 24} :
    respond k val s = .next t ↔ t = offer (responseWord 0 k val) s := by
  simp [respond, eq_comm]

/-! ### The loop of SCAN -/

/-- The window of `u` is that of `s` moved on by some number of shifts. -/
abbrev SlidTo : State → State → Prop := Relation.ReflTransGen fun a b => shiftWindow a = .ok b

/-- Shifts write `LHASH` and `WEND` only (42_rolling_hash_scanner.md R166). -/
theorem SlidTo.eq_atWindow (h : SlidTo s u) : ∃ l e, u = atWindow s l e := by
  induction h with
  | refl => exact ⟨s.lhash, s.wend, rfl⟩
  | tail _ hshift ih =>
    obtain ⟨l, e, rfl⟩ := ih
    obtain ⟨-, out, inc, -, -, rfl⟩ := shiftWindow_ok hshift
    exact ⟨_, _, rfl⟩

/-- The loop slides the window and ends where it stands, with either verdict (R168). -/
theorem scanLoop_slides {k : Nat} (h : scanLoop k s = .next t) :
    ∃ u, SlidTo s u ∧
      (scanFound (u.wend.toNat - u.pbits.toNat) u = .next t ∨ scanNotFound u = .next t) := by
  induction k generalizing s with
  | zero =>
    obtain ⟨c, -, hk⟩ := andThen_next.mp h
    refine ⟨s, .refl, ?_⟩
    split at hk
    · exact .inl hk
    · exact .inr hk
  | succ k ih =>
    obtain ⟨c, -, hk⟩ := andThen_next.mp h
    split at hk
    · exact ⟨s, .refl, .inl hk⟩
    · obtain ⟨s', hshift, hloop⟩ := andThen_next.mp hk
      obtain ⟨u, hslid, hend⟩ := ih hloop
      exact ⟨u, .head hshift hslid, hend⟩

/-! ### The effects -/

/-- `s` after an accepted nibble: `consumeNibble` where it answers (`consumeNibble_ok`). -/
def consumed (v : Nat) (s : State) : State :=
  advanceCompile (chunkWidth s) (chunkValue v (chunkWidth s)) (packed (paddedChunk v (chunkWidth s)) s.pfill.toNat s)

/-- What a command that succeeds leaves, beside the response, with the guards under which it does so. -/
inductive Effect (s : State) : Instr → State → Prop
  | nop : Effect s .nop s
  | matchAt (off : Nat) : Effect s (.matchAt off) s
  | exth (off cnt : Nat) : Effect s (.exth off cnt) s
  | extp (off cnt : Nat) : Effect s (.extp off cnt) s
  | rdreg (r : Nat) : Effect s (.rdreg r) s
  | wcheck : Effect s .wcheck s
  | clrerr : Effect s .clrerr (clearError s)
  | sreset : Effect s .sreset (resetRegisters s)
  | haylen (n : Nat) (hmax : n ≤ Config.maxHayBytes) :
      Effect s (.haylen n) { forgetSearch s with hbytes := BitVec.ofNat 21 n }
  | patbegin (n : Nat) (hcap : ceil8 n ≤ s.patCap) : Effect s (.patbegin n) (openCompile n s)
  | patnib (v : Nat) (hstate : s.pstate = .loading) (hv : v < 16) (hfill : s.pfill.toNat < s.pbits.toNat)
      (hbyte : s.pfill.toNat / 8 < s.patCap) : Effect s (.patnib v) (consumed v s)
  | winit {h : Nat} (hstate : s.pstate = .ready) (hlen : s.pbits.toNat ≤ s.hayBits) (hinit : hashInit s = .ok h) :
      Effect s .winit (openWindow h s)
  | wshift {u : State} (hstate : s.pstate = .ready) (hvalid : s.wvalid = true) (hshift : shiftWindow s = .ok u) :
      Effect s .wshift u
  | scanEmpty (hstate : s.pstate = .ready) (hempty : s.pbits.toNat = 0) : Effect s .scan (setFound 0 s)
  | scanTooLong (hstate : s.pstate = .ready) (hlen : s.hayBits < s.pbits.toNat) : Effect s .scan (setNotFound s)
  | scanFound {h : Nat} {u : State} (hstate : s.pstate = .ready) (hpos : s.pbits.toNat ≠ 0)
      (hlen : s.pbits.toNat ≤ s.hayBits) (hinit : hashInit s = .ok h) (hslid : SlidTo (openWindow h s) u) :
      Effect s .scan (setFound (u.wend.toNat - u.pbits.toNat) u)
  | scanNotFound {h : Nat} {u : State} (hstate : s.pstate = .ready) (hpos : s.pbits.toNat ≠ 0)
      (hlen : s.pbits.toNat ≤ s.hayBits) (hinit : hashInit s = .ok h) (hslid : SlidTo (openWindow h s) u) :
      Effect s .scan (setNotFound u)

/-- How a command ends: with an error of the table (60_exceptions.md R221), with a malformed nibble, which discards the
pattern too (R224), or with one of the effects and a response of `ERRC` 0. -/
inductive Ends (s : State) : Instr → State → Prop
  | failed {i : Instr} {e : Err} (herr : errorOf s i = some e) (hne : e ≠ .malformed) : Ends s i (afterError e s)
  | malformed {v : Nat} (hstate : s.pstate = .loading) (hv : 16 ≤ v) :
      Ends s (.patnib v) (afterError .malformed { s with pstate := .none })
  | done {i : Instr} {u : State} (k : Kind) (val : BitVec 24) (heff : Effect s i u) :
      Ends s i (offer (responseWord 0 k val) u)

theorem Ends.of_raise {e : Err} (herr : errorOf s i = some e) (hne : e ≠ .malformed) (h : raise e s = .next t) :
    Ends s i t := by
  rw [raise_next.mp h]
  exact .failed herr hne

theorem Ends.of_respond {k : Kind} {val : BitVec 24} (heff : Effect s i u) (h : respond k val u = .next t) :
    Ends s i t := by
  rw [respond_next.mp h]
  exact .done k val heff

theorem execHaylen_ends {n : Nat} (h : execHaylen n s = .next t) : Ends s (.haylen n) t := by
  unfold execHaylen at h
  split_ifs at h with hmax
  · exact .of_raise (if_pos hmax) (by decide) h
  · exact .of_respond (.haylen n (not_lt.mp hmax)) h

theorem execPatbegin_ends {n : Nat} (h : execPatbegin n s = .next t) : Ends s (.patbegin n) t := by
  unfold execPatbegin at h
  split_ifs at h with hcap
  · exact .of_raise (if_pos hcap) (by decide) h
  · exact .of_respond (.patbegin n (not_lt.mp hcap)) h

theorem execPatnib_ends {v : Nat} (h : execPatnib v s = .next t) : Ends s (.patnib v) t := by
  unfold execPatnib at h
  split_ifs at h with hstate hv
  · exact .of_raise (if_pos hstate) (by decide) h
  · rw [raise_next.mp h]
    exact .malformed (not_not.mp hstate) hv
  · obtain ⟨u, hu, hrsp⟩ := andThen_next.mp h
    obtain ⟨hfill, hbyte, rfl⟩ := consumeNibble_ok hu
    exact .of_respond (.patnib v (not_not.mp hstate) (not_le.mp hv) hfill hbyte) hrsp

theorem execScan_ends (h : execScan s = .next t) : Ends s .scan t := by
  unfold execScan at h
  split_ifs at h with hstate hempty hlen
  · exact .of_raise (if_pos hstate) (by decide) h
  · exact .of_respond (.scanEmpty (not_not.mp hstate) hempty) h
  · exact .of_respond (.scanTooLong (not_not.mp hstate) hlen) h
  · obtain ⟨v, hinit, hloop⟩ := andThen_next.mp h
    obtain ⟨u, hslid, hend | hend⟩ := scanLoop_slides hloop
    · exact .of_respond (.scanFound (not_not.mp hstate) hempty (not_lt.mp hlen) hinit hslid) hend
    · exact .of_respond (.scanNotFound (not_not.mp hstate) hempty (not_lt.mp hlen) hinit hslid) hend

theorem execMatch_ends {off : Nat} (h : execMatch off s = .next t) : Ends s (.matchAt off) t := by
  unfold execMatch at h
  split_ifs at h with hstate hrange
  · exact .of_raise (if_pos hstate) (by decide) h
  · exact .of_raise (by simp only [errorOf, if_neg hstate]; exact if_pos hrange) (by decide) h
  · obtain ⟨m, -, hrsp⟩ := andThen_next.mp h
    exact .of_respond (.matchAt off) hrsp

theorem execExth_ends {off cnt : Nat} (h : execExth off cnt s = .next t) : Ends s (.exth off cnt) t := by
  unfold execExth at h
  split_ifs at h with hbad
  · exact .of_raise (if_pos (of_decide_eq_true hbad)) (by decide) h
  · obtain ⟨v, -, hrsp⟩ := andThen_next.mp h
    exact .of_respond (.exth off cnt) hrsp

theorem execExtp_ends {off cnt : Nat} (h : execExtp off cnt s = .next t) : Ends s (.extp off cnt) t := by
  unfold execExtp at h
  split_ifs at h with hstate hbad
  · exact .of_raise (if_pos hstate) (by decide) h
  · exact .of_raise (by simp only [errorOf, if_neg hstate]; exact if_pos (of_decide_eq_true hbad)) (by decide) h
  · obtain ⟨v, -, hrsp⟩ := andThen_next.mp h
    exact .of_respond (.extp off cnt) hrsp

/-- There is a register for every number up to 12 (10_state.md R21). -/
theorem reg_eq_none {r : Nat} (h : s.reg r = none) : 12 < r := by
  by_contra hle
  interval_cases r <;> simp [State.reg] at h

theorem execRdreg_ends {r : Nat} (h : execRdreg r s = .next t) : Ends s (.rdreg r) t := by
  unfold execRdreg at h
  split at h
  case h_1 => exact .of_respond (.rdreg r) h
  case h_2 hnone => exact .of_raise (if_pos (reg_eq_none hnone)) (by decide) h

theorem noWindow_eq_true : noWindow s = true ↔ s.pstate ≠ .ready ∨ s.wvalid = false := by
  simp [noWindow]

theorem execWinit_ends (h : execWinit s = .next t) : Ends s .winit t := by
  unfold execWinit at h
  split_ifs at h with hstate hlen
  · exact .of_raise (if_pos hstate) (by decide) h
  · exact .of_raise (by simp only [errorOf, if_neg hstate]; exact if_pos hlen) (by decide) h
  · obtain ⟨v, hinit, hrsp⟩ := andThen_next.mp h
    exact .of_respond (.winit (not_not.mp hstate) (not_lt.mp hlen) hinit) hrsp

theorem execWcheck_ends (h : execWcheck s = .next t) : Ends s .wcheck t := by
  unfold execWcheck at h
  split_ifs at h with hno
  · exact .of_raise (if_pos (noWindow_eq_true.mp hno)) (by decide) h
  · obtain ⟨c, -, hrsp⟩ := andThen_next.mp h
    exact .of_respond .wcheck hrsp

theorem execWshift_ends (h : execWshift s = .next t) : Ends s .wshift t := by
  unfold execWshift at h
  split_ifs at h with hno hend
  · exact .of_raise (if_pos (noWindow_eq_true.mp hno)) (by decide) h
  · exact .of_raise (by simp only [errorOf, if_neg (noWindow_eq_true.not.mp hno)]; exact if_pos hend) (by decide) h
  · obtain ⟨u, hshift, hrsp⟩ := andThen_next.mp h
    obtain ⟨hstate, hvalid⟩ := noWindow_eq_false.mp (Bool.eq_false_of_not_eq_true hno)
    exact .of_respond (.wshift hstate hvalid hshift) hrsp

/-- Every command that completes ends by the table's error or by its effect. -/
theorem exec_ends (h : exec i s = .next t) : Ends s i t := by
  cases i with
  | nop => exact .of_respond .nop h
  | haylen n => exact execHaylen_ends h
  | patbegin n => exact execPatbegin_ends h
  | patnib v => exact execPatnib_ends h
  | scan => exact execScan_ends h
  | matchAt off => exact execMatch_ends h
  | exth off cnt => exact execExth_ends h
  | extp off cnt => exact execExtp_ends h
  | rdreg r => exact execRdreg_ends h
  | clrerr => exact .of_respond .clrerr h
  | sreset => exact .of_respond .sreset h
  | winit => exact execWinit_ends h
  | wcheck => exact execWcheck_ends h
  | wshift => exact execWshift_ends h

end Sys2Proof.Machine
end

section
/-! PROOFS. The datapath over bit strings: what the accessor answers is the number of the bits it reads
(40_bitfield_accessor.md R121), folding it extends a hash (41_pattern_compiler.md R141), and the shift takes the hash of
a window to that of the next (42_rolling_hash_scanner.md R166, R175). -/

namespace Sys2Proof.Machine

variable {s : State}

/-! ### Bits of a byte -/

theorem bitOf_eq (b : Byte) (r : Nat) : bitOf b r = b.toNat / 2 ^ (7 - r) % 2 := by
  rw [bitOf, Nat.and_one_is_mod, Nat.shiftRight_eq_div_pow]

/-- A field inside one byte is the byte shifted down and cut off. -/
theorem bitNumber_bitOf (b : Byte) (r c : Nat) (h : r + c ≤ 8) :
    bitNumber (bitOf b) r c = b.toNat / 2 ^ (8 - r - c) % 2 ^ c := by
  induction c with
  | zero => simp [bitNumber_zero, Nat.mod_one]
  | succ c ih =>
    have hhalf : b.toNat / 2 ^ (8 - r - c) = b.toNat / 2 ^ (8 - r - (c + 1)) / 2 := by
      rw [Nat.div_div_eq_div_mul, ← pow_succ]
      congr 2
      omega
    rw [bitNumber_succ, ih (by omega), bitOf_eq, hhalf, show 7 - (r + c) = 8 - r - (c + 1) by omega, pow_succ',
      Nat.mod_mul]
    omega

/-- Bits of a space that stand in one byte are that byte's. -/
theorem bitNumber_bitAt (s : State) (sp : Space) (off c : Nat) (h : off % 8 + c ≤ 8) :
    bitNumber (s.bitAt sp) off c = bitNumber (bitOf (s.byteAt sp (off / 8))) (off % 8) c :=
  bitNumber_congr fun i hi => by
    rw [State.bitAt, show (off + i) / 8 = off / 8 by omega, show (off + i) % 8 = off % 8 + i by omega]

/-- What the accessor answers is the number of the bits it reads, the first most significant (R121). -/
theorem extract_eq_bitNumber {sp : Space} {off c v : Nat} (h : extract s sp off c = .ok v) :
    v = bitNumber (s.bitAt sp) off c := by
  obtain ⟨⟨hpos, hmax, -⟩, -, ⟨hin, rfl⟩ | ⟨hspan, -, rfl⟩⟩ := extract_ok h
  · rw [bitNumber_bitAt s sp off c hin, bitNumber_bitOf _ _ _ hin, Nat.and_two_pow_sub_one_eq_mod,
      Nat.shiftRight_eq_div_pow]
  · obtain ⟨t1, ht1⟩ : ∃ t1, t1 = 8 - off % 8 := ⟨_, rfl⟩
    obtain ⟨t2, ht2⟩ : ∃ t2, t2 = c - t1 := ⟨_, rfl⟩
    have hfirst : bitNumber (s.bitAt sp) off t1 = (s.byteAt sp (off / 8)).toNat % 2 ^ t1 := by
      rw [bitNumber_bitAt s sp off t1 (by omega), bitNumber_bitOf _ _ _ (by omega),
        show 8 - off % 8 - t1 = 0 by omega, pow_zero, Nat.div_one]
    have hsecond : bitNumber (s.bitAt sp) (off + t1) t2 =
        (s.byteAt sp (off / 8 + 1)).toNat / 2 ^ (8 - t2) % 2 ^ t2 := by
      rw [bitNumber_bitAt s sp _ t2 (by omega), bitNumber_bitOf _ _ _ (by omega),
        show (off + t1) / 8 = off / 8 + 1 by omega, show (off + t1) % 8 = 0 by omega, Nat.sub_zero]
    rw [← ht1, ← ht2, show c = t1 + t2 by omega, bitNumber_add, hfirst, hsecond, Nat.shiftRight_zero,
      Nat.and_two_pow_sub_one_eq_mod, Nat.and_two_pow_sub_one_eq_mod, Nat.shiftRight_eq_div_pow,
      ← Nat.shiftLeft_add_eq_or_of_lt (Nat.mod_lt _ (Nat.two_pow_pos t2)), Nat.shiftLeft_eq]

/-- One bit extracted is that bit. -/
theorem extract_one {sp : Space} {off v : Nat} (h : extract s sp off 1 = .ok v) : v = s.bitAt sp off := by
  rw [extract_eq_bitNumber h, bitNumber_succ, bitNumber_zero]
  simp

/-! ### The hash -/

theorem fold_eq (h w v : Nat) : fold h w v = (h * 2 ^ w + v) % 167 := by
  rw [fold, Nat.shiftLeft_eq]

theorem fold_lt (h w v : Nat) : fold h w v < 167 := Nat.mod_lt _ (by decide)

theorem rnumStep_eq (r w : Nat) : rnumStep r w = r * 2 ^ w % 167 := by
  rw [rnumStep, Nat.shiftLeft_eq]

theorem bitHash_zero (f : Nat → Nat) (off : Nat) : bitHash f off 0 = 0 := rfl

theorem bitHash_lt (f : Nat → Nat) (off m : Nat) : bitHash f off m < 167 := Nat.mod_lt _ (by decide)

theorem bitHash_congr {f g : Nat → Nat} {off m : Nat} (h : ∀ i < m, f (off + i) = g (off + i)) :
    bitHash f off m = bitHash g off m := by
  rw [bitHash, bitHash, bitNumber_congr h]

/-- Folding a chunk extends the hash of a string by the chunk's bits (R141). -/
theorem fold_bitHash (f : Nat → Nat) (off m w : Nat) :
    fold (bitHash f off m) w (bitNumber f (off + m) w) = bitHash f off (m + w) := by
  rw [fold_eq, bitHash, bitHash, bitNumber_add]
  simp [Nat.add_mod, Nat.mul_mod]

/-- A register of 8 bits holds a value of the datapath exactly (41_pattern_compiler.md R149). -/
theorem toNat_ofNat_8 {n : Nat} (h : n < 167) : (BitVec.ofNat 8 n).toNat = n := by
  rw [BitVec.toNat_ofNat, Nat.mod_eq_of_lt (by omega)]

/-- From the hash of the first `j` bits the loop goes on to the hash of all `n` (R162). -/
theorem hashChunks_eq_bitHash {n fuel j h' : Nat} (hj : j ≤ n) (hfuel : n ≤ j + 8 * fuel)
    (h : hashChunks s n fuel j (bitHash (s.bitAt .haystack) 0 j) = .ok h') :
    h' = bitHash (s.bitAt .haystack) 0 n := by
  induction fuel generalizing j with
  | zero =>
    obtain rfl : j = n := by omega
    exact (Except.ok.inj h).symm
  | succ fuel ih =>
    unfold hashChunks at h
    split at h
    case isFalse hend =>
      obtain rfl : j = n := by omega
      exact (Except.ok.inj h).symm
    case isTrue =>
      rcases hv : extract s .haystack j (min 8 (n - j)) with f | v
      · simp [hv] at h
      · have hfold := fold_bitHash (s.bitAt .haystack) 0 j (min 8 (n - j))
        rw [Nat.zero_add, ← extract_eq_bitNumber hv] at hfold
        simp only [hv, hfold] at h
        exact ih (by omega) (by omega) h

/-- The initial hash is that of the first window (R162). -/
theorem hashInit_eq_bitHash {h : Nat} (hinit : hashInit s = .ok h) :
    h = bitHash (s.bitAt .haystack) 0 s.pbits.toNat :=
  hashChunks_eq_bitHash (Nat.zero_le _) (by unfold ceil8; omega) hinit

theorem hashInit_lt {h : Nat} (hinit : hashInit s = .ok h) : h < 167 :=
  hashInit_eq_bitHash hinit ▸ bitHash_lt _ _ _

/-! ### The shift -/

theorem shiftedHash_lt (h can out inc : Nat) : shiftedHash h can out inc < 167 := fold_lt _ _ _

/-- Cancelling and then folding is, for a leaving bit, `2 (h + out * can) + inc` modulo 167 (R166). -/
theorem shiftedHash_eq {h can out inc : Nat} (hout : out ≤ 1) :
    shiftedHash h can out inc = (2 * (h + out * can) + inc) % 167 := by
  obtain rfl | rfl : out = 0 ∨ out = 1 := by omega
  · simp [shiftedHash, fold_eq, Nat.mul_comm]
  · simp only [shiftedHash, if_true, fold_eq, pow_one, one_mul, Config.prime]
    omega

/-- Twice the cancel term takes `2 ^ n` away: `2 * 84 = 168` is 1 modulo 167 (R142, R144). -/
theorem two_mul_cancel {can rnum n : Nat} (hrnum : rnum = 84 * 2 ^ n % 167) (hcan : can = 167 - rnum) :
    (2 * can + 2 ^ n) % 167 = 0 := by
  have hlt : rnum < 167 := hrnum ▸ Nat.mod_lt _ (by decide)
  omega

/-- The hash of a window becomes that of the next: the leaving bit, the most significant of `n + 1`, is cancelled and
the entering one folded (R175). -/
theorem shiftedHash_bitHash {f : Nat → Nat} {start n can rnum : Nat} (hbit : f start ≤ 1)
    (hrnum : rnum = 84 * 2 ^ n % 167) (hcan : can = 167 - rnum) :
    shiftedHash (bitHash f start n) can (f start) (f (start + n)) = bitHash f (start + 1) n := by
  have hsplit : 2 * bitNumber f start n + f (start + n) = f start * 2 ^ n + bitNumber f (start + 1) n := by
    rw [← bitNumber_succ, Nat.add_comm n 1, bitNumber_add, bitNumber_succ, bitNumber_zero]
    simp
  have hcancel := two_mul_cancel hrnum hcan
  rw [shiftedHash_eq hbit, bitHash, bitHash]
  obtain h0 | h1 : f start = 0 ∨ f start = 1 := by omega
  · rw [h0] at hsplit ⊢
    omega
  · rw [h1] at hsplit ⊢
    omega

/-- A shift that answers takes the hash of the window to the hash of the next one (R166, R175). -/
theorem shiftedHash_of_extract {out inc : Nat} (hstart : s.pbits.toNat ≤ s.wend.toNat)
    (hout : extract s .haystack (s.wend.toNat - s.pbits.toNat) 1 = .ok out)
    (hinc : extract s .haystack s.wend.toNat 1 = .ok inc)
    (hrnum : s.rnum.toNat = 84 * 2 ^ s.pbits.toNat % 167) (hcan : s.pcan.toNat = 167 - s.rnum.toNat)
    (hfresh : s.lhash.toNat = bitHash (s.bitAt .haystack) (s.wend.toNat - s.pbits.toNat) s.pbits.toNat) :
    shiftedHash s.lhash.toNat s.pcan.toNat out inc =
      bitHash (s.bitAt .haystack) (s.wend.toNat - s.pbits.toNat + 1) s.pbits.toNat := by
  have hlast : s.wend.toNat - s.pbits.toNat + s.pbits.toNat = s.wend.toNat := Nat.sub_add_cancel hstart
  have key := shiftedHash_bitHash (bitAt_le s .haystack (s.wend.toNat - s.pbits.toNat)) hrnum hcan
  rwa [hlast, ← extract_one hout, ← extract_one hinc, ← hfresh] at key

end Sys2Proof.Machine
end

section
/-! PROOFS. What packing a nibble stores (41_pattern_compiler.md R144, R145): the bits before it stay, its own bits
follow, and the bits after it in the byte are zero. -/

namespace Sys2Proof.Machine

variable {s : State}

/-- The last `m` bits of a multiple of `2 ^ m` are zero; bit 0 is the most significant (00_scope.md R10). -/
theorem bitOf_eq_zero {b : Byte} {m r : Nat} (hdvd : 2 ^ m ∣ b.toNat) (hr : 8 ≤ r + m) (hr' : r < 8) :
    bitOf b r = 0 := by
  obtain ⟨q, hq⟩ := hdvd
  rw [bitOf_eq, hq, show m = (7 - r) + 1 + (m + r - 8) by omega, pow_add, pow_succ, Nat.mul_assoc, Nat.mul_assoc,
    Nat.mul_div_cancel_left _ (Nat.two_pow_pos _), Nat.mul_mod_right]

theorem toNat_and_F0 (b : Byte) : b.toNat &&& 0xF0 = b.toNat / 16 * 16 := by
  revert b
  decide

/-- The stored byte: the high nibble clears the low one (R145, 90_conflicts.md C3). -/
theorem packedByte_toNat {nib fill : Nat} (old : Byte) (hnib : nib < 16) :
    (packedByte nib fill old).toNat =
      if fill % 8 = 0 then nib * 16 else old.toNat / 16 * 16 + nib := by
  have hold := old.isLt
  unfold packedByte
  split
  · rw [BitVec.toNat_ofNat, Nat.shiftLeft_eq]
    omega
  · have hor : old.toNat / 16 * 16 ||| nib = old.toNat / 16 * 16 + nib := by
      rw [show old.toNat / 16 * 16 = (old.toNat / 16) <<< 4 from (Nat.shiftLeft_eq _ 4).symm,
        Nat.shiftLeft_add_eq_or_of_lt hnib]
    rw [BitVec.toNat_ofNat, toNat_and_F0, hor]
    omega

/-- The chunk of a nibble has `w` bits. -/
theorem chunkValue_lt {v w : Nat} (hv : v < 16) (hw : w ≤ 4) : chunkValue v w < 2 ^ w := by
  rw [chunkValue, Nat.shiftRight_eq_div_pow, Nat.div_lt_iff_lt_mul (Nat.two_pow_pos _), ← pow_add,
    show w + (4 - w) = 4 by omega]
  exact hv

theorem paddedChunk_eq (v w : Nat) : paddedChunk v w = chunkValue v w * 2 ^ (4 - w) := by
  rw [paddedChunk, Nat.shiftLeft_eq]

theorem paddedChunk_lt {v w : Nat} (hv : v < 16) (hw : w ≤ 4) : paddedChunk v w < 16 := by
  have h := Nat.mul_lt_mul_of_pos_right (chunkValue_lt hv hw) (Nat.two_pow_pos (4 - w))
  rwa [← pow_add, show w + (4 - w) = 4 by omega, ← paddedChunk_eq] at h

/-- The byte that takes the chunk: the bits before the chunk, then the chunk, then zeros. -/
theorem packedByte_toNat_chunk {v w fill : Nat} (old : Byte) (hv : v < 16) (hw : w ≤ 4) (hfill : fill % 4 = 0) :
    (packedByte (paddedChunk v w) fill old).toNat =
      (old.toNat / 2 ^ (8 - fill % 8) * 2 ^ w + chunkValue v w) * 2 ^ (8 - fill % 8 - w) := by
  have hold := old.isLt
  rw [packedByte_toNat old (paddedChunk_lt hv hw), paddedChunk_eq]
  obtain hr | hr : fill % 8 = 0 ∨ fill % 8 = 4 := by omega
  · have hnone : old.toNat / 2 ^ 8 = 0 := by omega
    rw [if_pos hr, hr, Nat.sub_zero, hnone, Nat.zero_mul, Nat.zero_add, Nat.mul_assoc,
      show 8 - w = (4 - w) + 4 by omega, pow_add]
    norm_num
  · rw [if_neg (by omega), hr, Nat.add_mul, Nat.mul_assoc, ← pow_add, show w + (8 - 4 - w) = 4 by omega]
    norm_num

section
variable {v w : Nat} (hv : v < 16) (hw : w ≤ 4) (hfill : s.pfill.toNat % 4 = 0)
include hv hw hfill

/-- The bits packed before stay. -/
theorem packed_bitAt_of_lt {k : Nat} (hk : k < s.pfill.toNat) :
    (packed (paddedChunk v w) s.pfill.toNat s).bitAt .pattern k = s.bitAt .pattern k := by
  unfold State.bitAt
  rw [packed_byteAt]
  split
  case isFalse => rfl
  case isTrue hbyte =>
    have hr : s.pfill.toNat % 8 = 4 := by omega
    have hk4 : k % 8 < 4 := by omega
    have hnib := paddedChunk_lt hv hw
    have hhigh : (packedByte (paddedChunk v w) s.pfill.toNat (s.byteAt .pattern (s.pfill.toNat / 8))).toNat / 16 =
        (s.byteAt .pattern (s.pfill.toNat / 8)).toNat / 16 := by
      rw [packedByte_toNat _ hnib, if_neg (by omega)]
      omega
    have hcut : ∀ b : Byte, bitOf b (k % 8) = b.toNat / 16 / 2 ^ (3 - k % 8) % 2 := fun b => by
      rw [bitOf_eq, Nat.div_div_eq_div_mul, show (16 : Nat) = 2 ^ 4 from rfl, ← pow_add,
        show 4 + (3 - k % 8) = 7 - k % 8 by omega]
    rw [hbyte, hcut, hcut, hhigh]

/-- The new bits are the chunk. -/
theorem packed_bitNumber :
    bitNumber ((packed (paddedChunk v w) s.pfill.toNat s).bitAt .pattern) s.pfill.toNat w = chunkValue v w := by
  rw [bitNumber_bitAt _ _ _ _ (by omega), packed_byteAt, if_pos rfl, bitNumber_bitOf _ _ _ (by omega),
    packedByte_toNat_chunk _ hv hw hfill, Nat.mul_div_cancel _ (Nat.two_pow_pos _), Nat.mul_add_mod',
    Nat.mod_eq_of_lt (chunkValue_lt hv hw)]

/-- The bits after the chunk, to the end of its byte, are zero. -/
theorem packed_bitAt_pad {k : Nat} (hk : s.pfill.toNat + w ≤ k) (hbyte : k / 8 = s.pfill.toNat / 8) :
    (packed (paddedChunk v w) s.pfill.toNat s).bitAt .pattern k = 0 := by
  unfold State.bitAt
  rw [packed_byteAt, if_pos hbyte]
  refine bitOf_eq_zero (m := 8 - s.pfill.toNat % 8 - w) ?_ (by omega) (Nat.mod_lt _ (by decide))
  rw [packedByte_toNat_chunk _ hv hw hfill]
  exact Nat.dvd_mul_left _ _

/-- So the hash of the bits packed goes on by the fold (R141, R144). -/
theorem fold_packed (hhash : s.phash.toNat = bitHash (s.bitAt .pattern) 0 s.pfill.toNat) :
    fold s.phash.toNat w (chunkValue v w) =
      bitHash ((packed (paddedChunk v w) s.pfill.toNat s).bitAt .pattern) 0 (s.pfill.toNat + w) := by
  have hold : bitHash (s.bitAt .pattern) 0 s.pfill.toNat =
      bitHash ((packed (paddedChunk v w) s.pfill.toNat s).bitAt .pattern) 0 s.pfill.toNat :=
    bitHash_congr fun i hi => by rw [Nat.zero_add, packed_bitAt_of_lt hv hw hfill hi]
  rw [hhash, hold, ← fold_bitHash, Nat.zero_add, packed_bitNumber hv hw hfill]

end

end Sys2Proof.Machine
end

section
/-! PROOFS. What decodes can be assembled: its operands are fields of the word (30_encoding.md R91, R93, R101). -/

namespace Sys2Proof.Machine

variable {i : Instr} {w : Word}

theorem aField_lt (w : Word) : aField w < 2 ^ 24 := (w.extractLsb' 0 24).isLt

theorem bField_lt (w : Word) : bField w < 2 ^ 4 := (w.extractLsb' 24 4).isLt

theorem formatZ_ok {f j : Instr} : formatZ w f = .ok j ↔ (bField w = 0 ∧ aField w = 0) ∧ f = j := by
  unfold formatZ
  split <;> simp_all

theorem formatA_ok {f : Nat → Instr} {j : Instr} : formatA w f = .ok j ↔ bField w = 0 ∧ f (aField w) = j := by
  unfold formatA
  split <;> simp_all

theorem formatBA_ok {f : Nat → Nat → Instr} {j : Instr} : formatBA w f = .ok j ↔ f (aField w) (bField w) = j :=
  ⟨Except.ok.inj, congrArg _⟩

theorem formatZ_wellFormed {f : Instr} (hf : f.wellFormed = true) (h : formatZ w f = .ok i) : i.wellFormed = true :=
  (formatZ_ok.mp h).2 ▸ hf

theorem formatA_wellFormed {f : Nat → Instr} (hf : ∀ a, (f a).wellFormed = fitsA a) (h : formatA w f = .ok i) :
    i.wellFormed = true := by
  obtain ⟨-, rfl⟩ := formatA_ok.mp h
  rw [hf]
  exact decide_eq_true (aField_lt w)

theorem formatBA_wellFormed {f : Nat → Nat → Instr} (hf : ∀ a b, (f a b).wellFormed = (fitsA a && fitsB b))
    (h : formatBA w f = .ok i) : i.wellFormed = true := by
  obtain rfl := formatBA_ok.mp h
  rw [hf, Bool.and_eq_true]
  exact ⟨decide_eq_true (aField_lt w), decide_eq_true (bField_lt w)⟩

/-- What decodes can be assembled: operands are fields of the word (30_encoding.md R93, R101). -/
theorem decode_wellFormed (h : decode w = .ok i) : i.wellFormed = true := by
  unfold decode at h
  split at h
  case h_1 | h_5 | h_10 | h_11 | h_12 | h_13 | h_14 => exact formatZ_wellFormed rfl h
  case h_2 | h_3 | h_4 | h_6 | h_9 => exact formatA_wellFormed (fun _ => rfl) h
  case h_7 | h_8 => exact formatBA_wellFormed (fun _ _ => rfl) h
  case h_15 => cases h

end Sys2Proof.Machine
end

section
/-! PROOFS. The invariants of 10_state.md R42: they hold where the registers have their reset values, and the
updates that commands and the host make keep them. -/

namespace Sys2Proof.Machine

variable {s u : State}

/-! ### Codes and memories -/

theorem errValue_le (e : Option Err) : errValue e ≤ 5 := by
  rcases e with _ | _ | _ <;> decide

theorem pstate_code_ne (p : PState) : p.code ≠ 3 := by
  cases p <;> decide

theorem verdict_code_ne (v : Verdict) : v.code ≠ 3 := by
  cases v <;> decide

/-- I11 holds in every state: the types leave no other code (93_implementation_defined.md U7). -/
theorem codes_of_state (s : State) :
    s.hbytes.toNat ≤ 2 ^ 21 - 1 ∧ s.verdict.code ≠ 3 ∧ s.pstate.code ≠ 3 ∧ errValue s.err ≤ 5 :=
  ⟨Nat.le_sub_one_of_lt s.hbytes.isLt, verdict_code_ne _, pstate_code_ne _, errValue_le _⟩

/-- A byte written inside a memory keeps its canonical form and its bound. -/
theorem Memory.form_put {m : Memory} {a bound : Nat} (b : Byte) (h : m.wf = true ∧ ∀ c ∈ m, c.1 < bound)
    (ha : a < bound) : (m.put a b).wf = true ∧ ∀ c ∈ m.put a b, c.1 < bound := by
  obtain ⟨hwf, hbound⟩ := h
  refine ⟨Memory.wf_put _ _ hwf, fun c hc => ?_⟩
  obtain rfl | hold := Memory.mem_put hc
  · exact ha
  · exact hbound c hold

/-- The byte that a word would write exists (20_memory.md R70, R71). -/
theorem pendingWrite_lt {w : Word} {a : Nat} (h : pendingWrite w s = some a) : a < s.patCap := by
  unfold pendingWrite at h
  split at h
  · obtain ⟨⟨-, -, hbyte⟩, ha⟩ := Option.ite_none_right_eq_some.mp h
    exact Option.some.inj ha ▸ hbyte
  · cases h

/-! ### Reset values -/

theorem powerUp_holdsResetValues (cap : Nat) (moves : List HostMove) : (State.powerUp cap moves).holdsResetValues := by
  simp [State.holdsResetValues, State.powerUp, State.reset, State.reg]

theorem resetRegisters_holdsResetValues (s : State) : (resetRegisters s).holdsResetValues := by
  simp [State.holdsResetValues, State.reg]

theorem hardReset_holdsResetValues (s : State) : (hardReset s).holdsResetValues := by
  simp [State.holdsResetValues, State.reg]

/-- The reset values meet I1 to I11 whatever the memories hold: no compile, no window and no verdict is left. -/
theorem invariants_of_holdsResetValues (h : s.holdsResetValues)
    (hcap : Config.patCapMin ≤ s.patCap ∧ s.patCap ≤ Config.patCapMax)
    (hpm : s.pm.wf = true ∧ ∀ c ∈ s.pm, c.1 < s.patCap) (hhm : s.hm.wf = true ∧ ∀ c ∈ s.hm, c.1 < 2 ^ 21) :
    Invariants s := by
  obtain ⟨-, hpstate, hwvalid, -, -, hpbits, hpfill, hphash, hpcan, hrnum, hlhash, -, hverdict, hmoff⟩ := h
  exact
    { hashes := by simp [hphash, hpcan, hrnum, hlhash]
      fill := by simp [hpfill, hpbits, ceil8]
      rnum := by simp [hrnum, hpfill]
      loading := by simp [hpstate]
      ready := by simp [hpstate]
      phash := by simp [hpstate]
      pad := by simp [hpstate]
      window := by simp [hwvalid]
      found := by simp [hverdict]
      offset := fun _ => hmoff
      codes := codes_of_state s
      capacity := hcap
      patternForm := hpm
      haystackForm := hhm }

/-- Settles O45: after power-up no byte is written, and neither reset touches pattern memory. -/
theorem resetValues : Obligations.ResetValues := by
  refine ⟨fun cap moves => ⟨powerUp_holdsResetValues cap moves, fun _ => rfl⟩,
    fun s => ⟨hardReset_holdsResetValues s, rfl⟩, fun s t h => ?_⟩
  rw [respond_next.mp h]
  exact ⟨resetRegisters_holdsResetValues s, rfl⟩

theorem invariants_powerUp {cap : Nat} (moves : List HostMove) (hmin : Config.patCapMin ≤ cap)
    (hmax : cap ≤ Config.patCapMax) : Invariants (State.powerUp cap moves) :=
  invariants_of_holdsResetValues (powerUp_holdsResetValues cap moves) ⟨hmin, hmax⟩
    ⟨rfl, fun _ hc => absurd hc List.not_mem_nil⟩ ⟨rfl, fun _ hc => absurd hc List.not_mem_nil⟩

/-- Settles O48: `State.reset` is the power-up state of the reference capacity. -/
theorem invAfterReset : Obligations.InvAfterReset :=
  ⟨invariants_powerUp (cap := Config.patCapReference) [] (by decide) (by decide),
    fun _ moves hmin hmax => invariants_powerUp moves hmin hmax⟩

/-! ### Updates of few fields -/

namespace Invariants

theorem withHost (inv : Invariants s) (moves : List HostMove) : Invariants { s with host := moves } := { inv with }

theorem offer (inv : Invariants s) (w : Word) : Invariants (offer w s) := { inv with }

theorem clearError (inv : Invariants s) : Invariants (clearError s) := { inv with codes := codes_of_state _ }

theorem afterError (inv : Invariants s) (e : Err) : Invariants (afterError e s) :=
  { inv with codes := codes_of_state _ }

theorem resetRegisters (inv : Invariants s) : Invariants (resetRegisters s) :=
  invariants_of_holdsResetValues (resetRegisters_holdsResetValues s) inv.capacity inv.patternForm inv.haystackForm

theorem hardReset (inv : Invariants s) : Invariants (hardReset s) :=
  invariants_of_holdsResetValues (hardReset_holdsResetValues s) inv.capacity inv.patternForm inv.haystackForm

/-- Without a complete pattern there is no window (I8). -/
theorem wvalid_of_not_ready (inv : Invariants s) (h : s.pstate ≠ .ready) : s.wvalid = false :=
  Bool.eq_false_of_not_eq_true fun hvalid => h (inv.window hvalid).1

/-- Without a complete pattern none is found (I9). -/
theorem verdict_of_not_ready (inv : Invariants s) (h : s.pstate ≠ .ready) : s.verdict ≠ .found :=
  fun hfound => h (inv.found hfound).1

/-- Discarding an open compile leaves no window and no match behind, as there was none. -/
theorem discardPattern (inv : Invariants s) (h : s.pstate = .loading) : Invariants { s with pstate := .none } := by
  have hnot : s.pstate ≠ .ready := by simp [h]
  exact
    { inv with
      loading := nofun
      ready := nofun
      phash := fun hne => absurd rfl hne
      pad := nofun
      window := by simp [inv.wvalid_of_not_ready hnot]
      found := by simp [inv.verdict_of_not_ready hnot]
      codes := codes_of_state _ }

/-- Forgetting the search makes I8 to I10 hold of any length. -/
theorem setHayLength (inv : Invariants s) (n : BitVec 21) : Invariants { forgetSearch s with hbytes := n } :=
  { inv with
    window := nofun
    found := nofun
    offset := fun _ => rfl
    codes := codes_of_state _ }

theorem setNotFound (inv : Invariants s) : Invariants (setNotFound s) :=
  { inv with
    found := nofun
    offset := fun _ => rfl
    codes := codes_of_state _ }

/-- A match that fits the haystack. -/
theorem setFound (inv : Invariants s) {off : Nat} (hstate : s.pstate = .ready)
    (hoff : off + s.pbits.toNat ≤ s.hayBits) : Invariants (setFound off s) :=
  { inv with
    found := fun _ => ⟨hstate, by
      have := hayBits_lt s
      rw [setFound_moff, setFound_pbits, setFound_hayBits, BitVec.toNat_ofNat, Nat.mod_eq_of_lt (by omega)]
      exact hoff⟩
    offset := fun hne => absurd rfl hne
    codes := codes_of_state _ }

theorem hostWrite (inv : Invariants s) (a : BitVec 21) (b : Byte) : Invariants (hostWrite a b s) :=
  { inv with haystackForm := Memory.form_put b inv.haystackForm a.isLt }

/-- Where a dropped command was about to write, the byte exists (70_reset_and_hazards.md R250). -/
theorem droppedCommand (inv : Invariants s) (w : Word) : Invariants (droppedCommand w s) := by
  unfold Machine.droppedCommand
  split
  case h_1 hpending =>
    have hbyte := pendingWrite_lt hpending
    exact invariants_of_holdsResetValues (hardReset_holdsResetValues _) inv.capacity
      (Memory.form_put _ inv.patternForm hbyte) inv.haystackForm
  case h_2 => exact inv.hardReset

/-! ### The window -/

/-- The first window of a complete pattern no longer than the haystack. -/
theorem openWindow (inv : Invariants s) {h : Nat} (hstate : s.pstate = .ready)
    (hlen : s.pbits.toNat ≤ s.hayBits) (hh : h < 167) : Invariants (openWindow h s) :=
  { inv with
    hashes := by
      obtain ⟨hphash, hpcan, hpos, hle, -⟩ := inv.hashes
      exact ⟨hphash, hpcan, hpos, hle, by rwa [openWindow_lhash, toNat_ofNat_8 hh]⟩
    window := fun _ => ⟨hstate, le_rfl, hlen⟩ }

/-- A shift that answers found its entering bit, so the window was not the last one. -/

theorem shiftWindow (inv : Invariants s) (hvalid : s.wvalid = true) (h : shiftWindow s = .ok u) : Invariants u := by
  obtain ⟨hstart, out, inc, -, hinc, rfl⟩ := shiftWindow_ok h
  obtain ⟨⟨-, -, hlt⟩, -⟩ := extract_ok hinc
  have hstate := (inv.window hvalid).1
  have hwend := moveWindow_wend_toNat (s := s) (shiftedHash s.lhash.toNat s.pcan.toNat out inc) hlt
  exact
    { inv with
      hashes := by
        obtain ⟨hphash, hpcan, hpos, hle, -⟩ := inv.hashes
        refine ⟨hphash, hpcan, hpos, hle, ?_⟩
        rw [moveWindow_lhash, toNat_ofNat_8 (shiftedHash_lt _ _ _ _)]
        exact shiftedHash_lt _ _ _ _
      window := fun _ => by
        rw [hwend]
        exact ⟨hstate, by rw [moveWindow_pbits]; omega, hlt⟩ }

/-! ### The compiler -/

/-- A compile opened: nothing is filled, `rnum` is at `84 * 2 ^ 0`, and the empty pattern is complete at once. -/
theorem openCompile (inv : Invariants s) {n : Nat} (hn : n < 2 ^ 24) (hcap : ceil8 n ≤ s.patCap) :
    Invariants (openCompile n s) := by
  have hpbits : (Machine.openCompile n s).pbits.toNat = n := by
    rw [openCompile_pbits, BitVec.toNat_ofNat, Nat.mod_eq_of_lt hn]
  have hloading : (Machine.openCompile n s).pstate = .loading → n ≠ 0 := by
    rintro h rfl
    cases h
  have hready : (Machine.openCompile n s).pstate = .ready → n = 0 := fun h => by
    by_contra hne
    simp [hne] at h
  obtain ⟨-, -, -, -, hlhash⟩ := inv.hashes
  exact
    { inv with
      hashes := by
        refine ⟨by simp, ?_, by simp, by simp, hlhash⟩
        rw [openCompile_pcan]
        split <;> decide
      fill := ⟨Nat.zero_le _, by rwa [hpbits]⟩
      rnum := by simp
      loading := fun h => by
        have hne := hloading h
        rw [hpbits]
        exact ⟨by omega, Nat.pos_of_ne_zero hne, rfl, if_neg hne⟩
      ready := fun h => by
        obtain rfl := hready h
        exact ⟨rfl, rfl, by simp⟩
      phash := fun _ => (bitHash_zero _ _).symm
      pad := fun h k hk => by
        rw [hpbits, hready h] at hk
        exact absurd hk (Nat.not_lt_zero k)
      window := nofun
      found := nofun
      offset := fun _ => rfl
      codes := codes_of_state _ }

end Invariants

end Sys2Proof.Machine
end

section
/-! PROOFS. An accepted nibble (41_pattern_compiler.md R144, R145): the registers after it, and that it keeps the
invariants of 10_state.md R42. -/

namespace Sys2Proof.Machine

variable {s : State}

/-- The chunk of an open compile: one to four bits, four unless it is the last (41_pattern_compiler.md R144). -/
theorem chunkWidth_bounds (hfill : s.pfill.toNat < s.pbits.toNat) :
    1 ≤ chunkWidth s ∧ chunkWidth s ≤ 4 ∧ s.pfill.toNat + chunkWidth s ≤ s.pbits.toNat ∧
      (chunkWidth s = 4 ∨ s.pfill.toNat + chunkWidth s = s.pbits.toNat) := by
  unfold chunkWidth
  omega

theorem rnumStep_lt (r w : Nat) : rnumStep r w < 167 := Nat.mod_lt _ (by decide)

/-- No chunk takes `rnum` to 0, as 167 is odd (R142). -/
theorem rnumStep_pos {r w : Nat} (hpos : 1 ≤ r) (hlt : r < 167) (hw : w ≤ 4) : 1 ≤ rnumStep r w := by
  rw [rnumStep_eq]
  interval_cases w <;> omega

/-! ### The registers after a nibble -/

@[simp] theorem consumed_pbits (v : Nat) (s : State) : (consumed v s).pbits = s.pbits := rfl

theorem consumed_pstate (v : Nat) (s : State) : (consumed v s).pstate =
    if s.pfill.toNat + chunkWidth s = s.pbits.toNat then .ready else s.pstate := rfl

theorem consumed_phash_toNat (v : Nat) (s : State) :
    (consumed v s).phash.toNat = fold s.phash.toNat (chunkWidth s) (chunkValue v (chunkWidth s)) :=
  toNat_ofNat_8 (fold_lt _ _ _)

theorem consumed_rnum_toNat (v : Nat) (s : State) :
    (consumed v s).rnum.toNat = rnumStep s.rnum.toNat (chunkWidth s) :=
  toNat_ofNat_8 (rnumStep_lt _ _)

theorem consumed_pfill_toNat (v : Nat) (hfill : s.pfill.toNat < s.pbits.toNat) :
    (consumed v s).pfill.toNat = s.pfill.toNat + chunkWidth s := by
  obtain ⟨-, -, hle, -⟩ := chunkWidth_bounds hfill
  have hlt : s.pfill.toNat + chunkWidth s < 2 ^ 24 := hle.trans_lt s.pbits.isLt
  exact (BitVec.toNat_ofNat _ _).trans (Nat.mod_eq_of_lt hlt)

/-- The last chunk completes the pattern and leaves the cancel term; before it the compile stays open (R144). -/
theorem consumed_cases (v : Nat) (hpos : 1 ≤ rnumStep s.rnum.toNat (chunkWidth s)) :
    (s.pfill.toNat + chunkWidth s = s.pbits.toNat ∧ (consumed v s).pstate = .ready ∧
        (consumed v s).pcan.toNat = 167 - rnumStep s.rnum.toNat (chunkWidth s)) ∨
      (s.pfill.toNat + chunkWidth s ≠ s.pbits.toNat ∧ (consumed v s).pstate = s.pstate ∧
        (consumed v s).pcan = s.pcan) := by
  by_cases hlast : s.pfill.toNat + chunkWidth s = s.pbits.toNat
  · have hcan : (consumed v s).pcan = BitVec.ofNat 8 (cancelTerm (rnumStep s.rnum.toNat (chunkWidth s))) :=
      if_pos hlast
    refine .inl ⟨hlast, if_pos hlast, ?_⟩
    rw [hcan]
    exact toNat_ofNat_8 (Nat.sub_lt (by decide) hpos)
  · exact .inr ⟨hlast, if_neg hlast, if_neg hlast⟩

/-- An accepted nibble (R144, R145): hash and `rnum` go on with the fill, and the last chunk makes the pattern ready
with its cancel term and zero pad bits. -/
theorem Invariants.consumed (inv : Invariants s) {v : Nat} (hstate : s.pstate = .loading) (hv : v < 16)
    (hbyte : s.pfill.toNat / 8 < s.patCap) : Invariants (consumed v s) := by
  obtain ⟨-, hfill, haligned, hpcan⟩ := inv.loading hstate
  obtain ⟨hwpos, hw, hle, hfour⟩ := chunkWidth_bounds hfill
  obtain ⟨-, -, hrpos, hrle, hlhash⟩ := inv.hashes
  have hnot : s.pstate ≠ .ready := by simp [hstate]
  have hpfill := consumed_pfill_toNat v hfill
  have hphash := consumed_phash_toNat v s
  have hrnum := consumed_rnum_toNat v s
  have hrpos' : 1 ≤ rnumStep s.rnum.toNat (chunkWidth s) := rnumStep_pos hrpos (by omega) hw
  have hrlt' := rnumStep_lt s.rnum.toNat (chunkWidth s)
  have hhash := fold_packed hv hw haligned (inv.phash (by simp [hstate]))
  have hcases := consumed_cases v hrpos'
  rw [hstate, hpcan] at hcases
  exact
    { inv with
      hashes := by
        rw [hphash, hrnum]
        refine ⟨fold_lt _ _ _, ?_, hrpos', Nat.le_of_lt_succ hrlt', hlhash⟩
        obtain ⟨-, -, hcan⟩ | ⟨-, -, hcan⟩ := hcases
        · omega
        · simp [hcan]
      fill := ⟨hpfill ▸ hle, inv.fill.2⟩
      rnum := by rw [hrnum, hpfill, rnumStep_eq, inv.rnum, pow_add, ← Nat.mul_assoc, Nat.mod_mul_mod]
      loading := fun hloading => by
        obtain ⟨-, hp, -⟩ | ⟨hmore, -, hcan⟩ := hcases
        · simp [hp] at hloading
        · rw [hpfill, consumed_pbits]
          exact ⟨by omega, by omega, by omega, hcan⟩
      ready := fun hready => by
        obtain ⟨hlast, -, hcan⟩ | ⟨-, hp, -⟩ := hcases
        · rw [hrnum, hcan]
          exact ⟨BitVec.eq_of_toNat_eq (hpfill.trans hlast), rfl, by omega, by omega⟩
        · simp [hp] at hready
      phash := fun _ => by rw [hphash, hpfill]; exact hhash
      pad := fun hready k hk hpad => by
        obtain ⟨hlast, -, -⟩ | ⟨-, hp, -⟩ := hcases
        · simp only [consumed_pbits, ceil8] at hk hpad
          exact packed_bitAt_pad hv hw haligned (by omega) (by omega)
        · simp [hp] at hready
      window := fun hvalid => absurd (inv.window hvalid).1 hnot
      found := fun hfound => absurd (inv.found hfound).1 hnot
      codes := codes_of_state _
      patternForm := Memory.form_put _ inv.patternForm hbyte }

end Sys2Proof.Machine
end

section
/-! PROOFS. Every command, every move of the host and so every step keeps the invariants of 10_state.md R42; they
hold on every run. -/

namespace Sys2Proof.Machine

variable {s t u : State} {i : Instr}

/-! ### Commands keep the invariants -/

/-- A window that slides stays a valid window (I8). -/
theorem SlidTo.invariants (h : SlidTo s u) (inv : Invariants s) (hvalid : s.wvalid = true) :
    Invariants u ∧ u.wvalid = true := by
  induction h with
  | refl => exact ⟨inv, hvalid⟩
  | tail _ hshift ih =>
    obtain ⟨inv', hvalid'⟩ := ih
    refine ⟨inv'.shiftWindow hvalid' hshift, ?_⟩
    obtain ⟨-, out, inc, -, -, rfl⟩ := shiftWindow_ok hshift
    exact hvalid'

/-- The window that `SCAN` opened and slid. -/
theorem SlidTo.invariants_of_open {h : Nat} (inv : Invariants s) (hstate : s.pstate = .ready)
    (hlen : s.pbits.toNat ≤ s.hayBits) (hinit : hashInit s = .ok h) (hslid : SlidTo (openWindow h s) u) :
    Invariants u ∧ u.wvalid = true :=
  hslid.invariants (inv.openWindow hstate hlen (hashInit_lt hinit)) rfl

/-- A match reported at the start of a valid window fits the haystack (I9). -/
theorem Invariants.setFound_window (inv : Invariants s) (hvalid : s.wvalid = true) :
    Invariants (Machine.setFound (s.wend.toNat - s.pbits.toNat) s) := by
  obtain ⟨hstate, hstart, hstop⟩ := inv.window hvalid
  exact inv.setFound hstate (by rwa [Nat.sub_add_cancel hstart])

/-- Every effect keeps the invariants. -/
theorem Effect.invariants (heff : Effect s i u) (hi : i.wellFormed = true) (inv : Invariants s) : Invariants u := by
  cases heff with
  | nop | matchAt | exth | extp | rdreg | wcheck => exact inv
  | clrerr => exact inv.clearError
  | sreset => exact inv.resetRegisters
  | haylen n => exact inv.setHayLength _
  | patbegin n hcap => exact inv.openCompile (of_decide_eq_true hi) hcap
  | patnib v hstate hv _ hbyte => exact inv.consumed hstate hv hbyte
  | winit hstate hlen hinit => exact inv.openWindow hstate hlen (hashInit_lt hinit)
  | wshift _ hvalid hshift => exact inv.shiftWindow hvalid hshift
  | scanEmpty hstate hempty => exact inv.setFound hstate (by omega)
  | scanTooLong => exact inv.setNotFound
  | scanFound hstate _ hlen hinit hslid =>
    obtain ⟨inv', hvalid⟩ := SlidTo.invariants_of_open inv hstate hlen hinit hslid
    exact inv'.setFound_window hvalid
  | scanNotFound hstate _ hlen hinit hslid =>
    exact (SlidTo.invariants_of_open inv hstate hlen hinit hslid).1.setNotFound

theorem Ends.invariants (h : Ends s i t) (hi : i.wellFormed = true) (inv : Invariants s) : Invariants t := by
  cases h with
  | failed => exact inv.afterError _
  | malformed hstate => exact (inv.discardPattern hstate).afterError _
  | done _ _ heff => exact (heff.invariants hi inv).offer _

theorem deliver_invariants {w : Word} (inv : Invariants s) (h : deliver w s = .next t) : Invariants t := by
  cases hdec : decode w with
  | ok i =>
    rw [deliver_of_decode_ok hdec] at h
    exact (exec_ends h).invariants (decode_wellFormed hdec) inv
  | error e =>
    rw [deliver_of_decode_error hdec, raise_next] at h
    exact h ▸ inv.afterError _

/-! ### Steps and runs -/

theorem hostMove_invariants {m : HostMove} (inv : Invariants s) (h : hostMove m s = .next t) : Invariants t := by
  cases m with
  | send w => exact deliver_invariants inv h
  | write a b => exact Host.Outcome.next.inj h ▸ inv.hostWrite a b
  | reset => exact Host.Outcome.next.inj h ▸ inv.hardReset
  | sendReset w => exact Host.Outcome.next.inj h ▸ inv.droppedCommand w

/-- Settles O49: by the host's next move, a delivered command by the list of its ends. -/
theorem stepKeepsInv : Obligations.StepKeepsInv := by
  intro s t inv h
  unfold step at h
  split at h
  · exact Host.Outcome.next.inj h ▸ inv
  · exact hostMove_invariants (inv.withHost _) h

/-- The invariants are inductive: a run from a state that has them keeps them. -/
theorem run_invariants {k : Nat} {s t : State} (inv : Invariants s) (h : Host.Core.run core k s = .next t) :
    Invariants t := by
  induction k generalizing s with
  | zero => exact Host.Outcome.next.inj h ▸ inv
  | succ k ih =>
    simp only [Host.Core.run] at h
    split at h
    case h_1 s' hstep => exact ih (stepKeepsInv s s' inv hstep) h
    case h_2 => cases h
    case h_3 => cases h

/-- Settles O50: the power-up state has the invariants and every step of the run keeps them. -/
theorem invOnEveryRun : Obligations.InvOnEveryRun :=
  fun _ moves _ _ hmin hmax h => run_invariants (invariants_powerUp moves hmin hmax) h

end Sys2Proof.Machine
end

section
/-! PROOFS. Every command keeps the live hash the hash of the window (10_state.md R31, 42_rolling_hash_scanner.md
R175). -/

namespace Sys2Proof.Machine

variable {s t u : State} {i : Instr}

/-- The first window is opened with its hash (42_rolling_hash_scanner.md R162). -/
theorem windowFresh_openWindow {h : Nat} (hinit : hashInit s = .ok h) : (openWindow h s).windowFresh := by
  intro _
  obtain rfl := hashInit_eq_bitHash hinit
  rw [openWindow_lhash, openWindow_wend, openWindow_pbits, openWindow_bitAt, Nat.sub_self,
    toNat_ofNat_8 (bitHash_lt _ _ _)]

/-- A shift leaves the hash of the next window (R175). -/
theorem shiftWindow_windowFresh (inv : Invariants s) (hvalid : s.wvalid = true) (hfresh : s.windowFresh)
    (h : shiftWindow s = .ok u) : u.windowFresh := by
  intro _
  obtain ⟨hstart, out, inc, hout, hinc, rfl⟩ := shiftWindow_ok h
  obtain ⟨⟨-, -, hlt⟩, -⟩ := extract_ok hinc
  obtain ⟨hfill, hcan, -⟩ := inv.ready (inv.window hvalid).1
  have hnext := shiftedHash_of_extract hstart hout hinc (hfill ▸ inv.rnum) hcan (hfresh hvalid)
  rw [moveWindow_lhash, moveWindow_pbits, moveWindow_bitAt, toNat_ofNat_8 (shiftedHash_lt _ _ _ _),
    moveWindow_wend_toNat _ hlt, hnext, Nat.sub_add_comm hstart]

theorem SlidTo.windowFresh (h : SlidTo s u) (inv : Invariants s) (hvalid : s.wvalid = true)
    (hfresh : s.windowFresh) : u.windowFresh := by
  induction h with
  | refl => exact hfresh
  | tail hslid hshift ih =>
    obtain ⟨inv', hvalid'⟩ := SlidTo.invariants hslid inv hvalid
    exact shiftWindow_windowFresh inv' hvalid' ih hshift

theorem SlidTo.windowFresh_of_open {h : Nat} (inv : Invariants s) (hstate : s.pstate = .ready)
    (hlen : s.pbits.toNat ≤ s.hayBits) (hinit : hashInit s = .ok h) (hslid : SlidTo (openWindow h s) u) :
    u.windowFresh :=
  hslid.windowFresh (inv.openWindow hstate hlen (hashInit_lt hinit)) rfl
    (windowFresh_openWindow hinit)

theorem Effect.windowFresh (heff : Effect s i u) (inv : Invariants s) (hfresh : s.windowFresh) : u.windowFresh := by
  cases heff with
  | nop | matchAt | exth | extp | rdreg | wcheck | clrerr => exact hfresh
  | sreset | haylen | patbegin => exact nofun
  | patnib => exact hfresh
  | winit _ _ hinit => exact windowFresh_openWindow hinit
  | wshift _ hvalid hshift => exact shiftWindow_windowFresh inv hvalid hfresh hshift
  | scanEmpty | scanTooLong => exact hfresh
  | scanFound hstate _ hlen hinit hslid | scanNotFound hstate _ hlen hinit hslid =>
    have hwindow := SlidTo.windowFresh_of_open inv hstate hlen hinit hslid
    exact hwindow

theorem Ends.windowFresh (h : Ends s i t) (inv : Invariants s) (hfresh : s.windowFresh) : t.windowFresh := by
  cases h with
  | failed | malformed => exact hfresh
  | done _ _ heff => exact heff.windowFresh inv hfresh

/-- Settles O53: an illegal word touches no register of the window; a command by the list of its ends. -/
theorem commandsKeepTheWindowHash : Obligations.CommandsKeepTheWindowHash := by
  intro w s t inv hfresh h
  cases hdec : decode w with
  | ok i =>
    rw [deliver_of_decode_ok hdec] at h
    exact (exec_ends h).windowFresh inv hfresh
  | error e =>
    rw [deliver_of_decode_error hdec, raise_next] at h
    exact h ▸ hfresh

end Sys2Proof.Machine
end

section
/-! PROOFS. Transitions and frames: `PSTATE` (10_state.md R34), `WVALID` (R35) and every register by the commands that
the register table names for it (R21). -/

namespace Sys2Proof.Machine

variable {s t u : State} {i : Instr}

/-! ### Transitions -/

/-- Short of a malformed nibble, `PATNIB` fails only where no compile is open (60_exceptions.md R221). -/
theorem not_loading_of_patnib_error {v : Nat} {e : Err} (herr : errorOf s (.patnib v) = some e)
    (hne : e ≠ .malformed) : s.pstate ≠ .loading := by
  intro hloading
  rw [errorOf, if_neg (not_not.mpr hloading), Option.ite_none_right_eq_some] at herr
  exact hne (Option.some.inj herr.2).symm

theorem shiftWindow_eq_atWindow (h : shiftWindow s = .ok u) : ∃ l e, u = atWindow s l e :=
  SlidTo.eq_atWindow (.single h)

/-- Settles O42: by the list of the ends of a command. -/
theorem pstateTransitions : Obligations.PstateTransitions := by
  intro i s t h
  cases exec_ends h with
  | failed herr hne =>
    cases i with
    | patbegin n => exact (if_pos (Option.ite_none_right_eq_some.mp herr).1).symm
    | patnib v => exact (if_pos (not_loading_of_patnib_error herr hne)).symm
    | sreset => cases herr
    | _ => rfl
  | malformed hstate hv => simp [hstate, hv]
  | done _ _ heff =>
    cases heff with
    | patbegin n hcap => exact (if_neg (not_lt.mpr hcap)).symm
    | patnib v hstate hv =>
      have hlast : s.pfill.toNat + chunkWidth s = s.pbits.toNat ↔ s.pbits.toNat ≤ s.pfill.toNat + 4 := by
        unfold chunkWidth
        omega
      simp [consumed_pstate, hstate, hv, hlast]
    | wshift _ _ hshift =>
      obtain ⟨l, e, rfl⟩ := shiftWindow_eq_atWindow hshift
      rfl
    | scanFound _ _ _ _ hslid | scanNotFound _ _ _ _ hslid =>
      obtain ⟨l, e, rfl⟩ := SlidTo.eq_atWindow hslid
      rfl
    | _ => rfl

/-- Settles O43: by the list of the ends of a command. -/
theorem wvalidTransitions : Obligations.WvalidTransitions := by
  intro i s t h
  cases exec_ends h with
  | failed herr =>
    cases i with
    | haylen n | patbegin n => exact (if_pos (Option.ite_none_right_eq_some.mp herr).1).symm
    | sreset => cases herr
    | winit =>
      refine (if_neg fun ⟨hstate, hlen⟩ => ?_).symm
      rw [errorOf, if_neg (not_not.mpr hstate), Option.ite_none_right_eq_some] at herr
      exact herr.1.not_ge hlen
    | scan => exact (if_neg fun hcond => (Option.ite_none_right_eq_some.mp herr).1 hcond.1).symm
    | _ => rfl
  | malformed => rfl
  | done _ _ heff =>
    cases heff with
    | haylen n hmax => exact (if_neg (not_lt.mpr hmax)).symm
    | patbegin n hcap => exact (if_neg (not_lt.mpr hcap)).symm
    | winit hstate hlen => exact (if_pos ⟨hstate, hlen⟩).symm
    | wshift _ _ hshift =>
      obtain ⟨l, e, rfl⟩ := shiftWindow_eq_atWindow hshift
      rfl
    | scanEmpty _ hempty =>
      exact (if_neg fun ⟨_, hpos, _⟩ => hpos (BitVec.eq_of_toNat_eq hempty)).symm
    | scanTooLong _ hlen => exact (if_neg fun ⟨_, _, hle⟩ => hlen.not_ge hle).symm
    | scanFound hstate hpos hlen _ hslid | scanNotFound hstate hpos hlen _ hslid =>
      obtain ⟨l, e, rfl⟩ := SlidTo.eq_atWindow hslid
      exact (if_pos ⟨hstate, fun hempty => hpos (congrArg BitVec.toNat hempty), hlen⟩).symm
    | _ => rfl

/-! ### The register table -/

/-- Only register 2 reads `ERR` (R21, R24). -/
theorem reg_setErr (x : Option Err) {r : Nat} (hr : r ≠ 2) : ({ s with err := x } : State).reg r = s.reg r := by
  unfold State.reg
  split
  case h_3 => exact absurd rfl hr
  all_goals rfl

theorem afterError_reg (e : Err) {r : Nat} (hr : r ≠ 2) : (afterError e s).reg r = s.reg r :=
  reg_setErr (s := s) (s.err.or (some e)) hr

/-- Only register 1, `STATUS`, reads `PSTATE` (R21, R23). -/
theorem reg_setPstate (x : PState) {r : Nat} (hr : r ≠ 1) : ({ s with pstate := x } : State).reg r = s.reg r := by
  unfold State.reg
  split
  case h_2 => exact absurd rfl hr
  all_goals rfl

/-- An effect leaves every register alone that the table does not name for its command (R21): register by register, the
field is untouched or the command's row names the number. -/
theorem Effect.reg_eq (heff : Effect s i u) {r : Nat} (hr : writesReg i r = false) : u.reg r = s.reg r := by
  cases heff
  case' wshift hshift => obtain ⟨l, e, rfl⟩ := shiftWindow_eq_atWindow hshift
  case' scanFound hslid => obtain ⟨l, e, rfl⟩ := SlidTo.eq_atWindow hslid
  case' scanNotFound hslid => obtain ⟨l, e, rfl⟩ := SlidTo.eq_atWindow hslid
  all_goals
    unfold State.reg
    split
    any_goals rfl
    all_goals simp [writesReg] at hr

/-- Settles O39: an error writes `ERR` and, for a malformed nibble, `STATUS`; an effect by the table. -/
theorem registersWrittenOnlyByTheirCommands : Obligations.RegistersWrittenOnlyByTheirCommands := by
  intro i s t r h hchanged
  cases exec_ends h with
  | failed =>
    refine .inr ⟨?_, _, afterError_rsp _ _⟩
    by_contra h2
    exact hchanged (afterError_reg _ h2)
  | malformed =>
    by_cases h2 : r = 2
    · exact .inr ⟨h2, _, afterError_rsp _ _⟩
    · left
      by_contra hr
      have h1 : r ≠ 1 := by
        rintro rfl
        exact hr rfl
      exact hchanged ((afterError_reg _ h2).trans (reg_setPstate (s := s) .none h1))
  | done _ _ heff =>
    left
    by_contra hr
    exact hchanged (heff.reg_eq (Bool.eq_false_of_not_eq_true hr))

end Sys2Proof.Machine
end

section
/-! PROOFS. What the reads of a command depend on: two states whose buffers have the same lengths and contents give the
accessor, the hash loop and the matcher the same answers (40_bitfield_accessor.md R123, R124). -/

namespace Sys2Proof.Machine

variable {s t : State}

/-- The two buffers have the same lengths and the same bytes in both states. -/
structure SameBuffers (s t : State) : Prop where
  bits (sp : Space) : t.spaceBits sp = s.spaceBits sp
  bytes (sp : Space) : t.spaceBytes sp = s.spaceBytes sp
  contents (sp : Space) (a : Nat) : t.byteAt sp a = s.byteAt sp a

namespace SameBuffers

theorem pbits (h : SameBuffers s t) : t.pbits.toNat = s.pbits.toNat := h.bits .pattern

theorem readByte (h : SameBuffers s t) (sp : Space) (a : Nat) : readByte t sp a = readByte s sp a := by
  rw [Machine.readByte, Machine.readByte, h.bytes, h.contents]

theorem extract (h : SameBuffers s t) (sp : Space) (off c : Nat) : extract t sp off c = extract s sp off c := by
  rw [Machine.extract, Machine.extract, h.bits]
  simp only [h.readByte]

theorem hashChunks (h : SameBuffers s t) (n fuel j v : Nat) : hashChunks t n fuel j v = hashChunks s n fuel j v := by
  induction fuel generalizing j v with
  | zero => rfl
  | succ fuel ih => simp only [Machine.hashChunks, h.extract, ih]

theorem hashInit (h : SameBuffers s t) : hashInit t = hashInit s := by
  rw [Machine.hashInit, Machine.hashInit, h.pbits, h.hashChunks]

theorem matchChunks (h : SameBuffers s t) (start n fuel j : Nat) :
    matchChunks t start n fuel j = matchChunks s start n fuel j := by
  induction fuel generalizing j with
  | zero => rfl
  | succ fuel ih => simp only [Machine.matchChunks, h.extract, ih]

theorem patternMatches (h : SameBuffers s t) (start : Nat) : patternMatches t start = patternMatches s start := by
  rw [Machine.patternMatches, Machine.patternMatches, h.pbits, h.matchChunks]

end SameBuffers

end Sys2Proof.Machine
end

section
/-! PROOFS. `ERR` (10_state.md R24): the first error is recorded and stays, and what is recorded changes nothing else
that a command does. -/

namespace Sys2Proof.Machine

variable {s t u : State} {i : Instr}

/-! ### Response words tell errors from successes -/

theorem opField_responseWord (errc : Nat) (k : Kind) (val : BitVec 24) (h : errc < 16) :
    opField (responseWord errc k val) = errc := by
  have hval := val.isLt
  have hhead : (BitVec.ofNat 4 errc ++ BitVec.ofNat 4 k.code : BitVec 8).toNat / 2 ^ 4 = errc := by
    rw [BitVec.toNat_append, ← Nat.shiftLeft_add_eq_or_of_lt (BitVec.isLt _), Nat.shiftLeft_eq, BitVec.toNat_ofNat,
      BitVec.toNat_ofNat]
    omega
  rw [opField, responseWord, BitVec.extractLsb'_toNat, BitVec.toNat_append, ← Nat.shiftLeft_add_eq_or_of_lt hval,
    Nat.shiftLeft_eq, Nat.shiftRight_eq_div_pow]
  omega

theorem opField_errorWord (e : Err) : opField (errorWord e) = e.code := by
  cases e <;> rfl

theorem errorWord_ne_success (e : Err) (k : Kind) (val : BitVec 24) : responseWord 0 k val ≠ errorWord e := by
  intro h
  have hcode := congrArg opField h
  rw [opField_responseWord 0 k val (by decide), opField_errorWord] at hcode
  cases e <;> cases hcode

theorem errorWord_injective : Function.Injective errorWord := by
  intro e e' h
  have hcode := congrArg opField h
  rw [opField_errorWord, opField_errorWord] at hcode
  cases e <;> cases e' <;> simp [Err.code] at hcode ⊢

/-! ### ERR at the end of a command -/

theorem errValue_eq_zero {e : Option Err} : errValue e = 0 ↔ e = none := by
  cases e with
  | none => simp [errValue]
  | some e => cases e <;> simp [errValue, Err.code]

/-- Only `CLRERR` and `SRESET` change `ERR` and succeed. -/
theorem Effect.err_eq (heff : Effect s i u) : u.err = s.err ∨ i = .clrerr ∨ i = .sreset := by
  cases heff with
  | clrerr => exact .inr (.inl rfl)
  | sreset => exact .inr (.inr rfl)
  | wshift _ _ hshift =>
    obtain ⟨l, e, rfl⟩ := shiftWindow_eq_atWindow hshift
    exact .inl rfl
  | scanFound _ _ _ _ hslid | scanNotFound _ _ _ _ hslid =>
    obtain ⟨l, e, rfl⟩ := SlidTo.eq_atWindow hslid
    exact .inl rfl
  | _ => exact .inl rfl

/-- A command that fails records its code if none is recorded; one that succeeds answers no error word. -/
theorem Ends.rsp_err (h : Ends s i t) :
    (∃ e, t.rsp = some (errorWord e) ∧ t.err = s.err.or (some e)) ∨
      ((∀ e, t.rsp ≠ some (errorWord e)) ∧ (t.err = s.err ∨ i = .clrerr ∨ i = .sreset)) := by
  cases h with
  | failed | malformed => exact .inl ⟨_, rfl, rfl⟩
  | done k val heff =>
    exact .inr ⟨fun e hrsp => errorWord_ne_success e k val (Option.some.inj hrsp), heff.err_eq⟩

/-! ### What ERR holds blocks nothing -/

/-- The state with another `ERR`. -/
def withErr (x : Option Err) (s : State) : State := { s with err := x }

theorem sameBuffers_withErr (x : Option Err) (s : State) : SameBuffers s (withErr x s) :=
  ⟨fun sp => by cases sp <;> rfl, fun sp => by cases sp <;> rfl, fun sp _ => by cases sp <;> rfl⟩

/-- Two commands end alike, but for what `ERR` holds after. -/
inductive AgreeButErr : Result → Result → Prop
  | next (t : State) (y : Option Err) : AgreeButErr (.next t) (.next (withErr y t))
  | fault (f : Fault) : AgreeButErr (.fault f) (.fault f)

namespace AgreeButErr

variable (x : Option Err)

theorem raise (e : Err) (s : State) : AgreeButErr (raise e s) (raise e (withErr x s)) :=
  .next (afterError e s) (x.or (some e))

theorem respond (k : Kind) (val : BitVec 24) (s : State) :
    AgreeButErr (respond k val s) (respond k val (withErr x s)) :=
  .next (offer (responseWord 0 k val) s) x

/-- Both take the same branch. -/
theorem ite {p : Prop} [Decidable p] {a a' b b' : Result} (ha : AgreeButErr a a') (hb : AgreeButErr b b') :
    AgreeButErr (if p then a else b) (if p then a' else b') := by
  split
  · exact ha
  · exact hb

/-- Both go on with the same answer of a partial operation, or stop with its fault. -/
theorem andThen {α : Type} {p p' : Except Fault α} {k k' : α → Result} (hp : p' = p)
    (hk : ∀ a, AgreeButErr (k a) (k' a)) : AgreeButErr (andThen p k) (andThen p' k') := by
  subst hp
  cases p' with
  | ok a => exact hk a
  | error f => exact .fault f

/-- The same where the answer is a state: the two differ in `ERR`. -/
theorem andThen_state {p p' : Except Fault State} {k k' : State → Result} (hp : p' = p.map (withErr x))
    (hk : ∀ a, AgreeButErr (k a) (k' (withErr x a))) : AgreeButErr (Machine.andThen p k) (Machine.andThen p' k') := by
  subst hp
  cases p with
  | ok a => exact hk a
  | error f => exact .fault f

end AgreeButErr

theorem windowStart_withErr (x : Option Err) (s : State) : windowStart (withErr x s) = windowStart s := rfl

theorem checkWindow_withErr (x : Option Err) (s : State) : checkWindow (withErr x s) = checkWindow s := by
  simp only [checkWindow, windowStart_withErr, (sameBuffers_withErr x s).patternMatches]
  rfl

theorem shiftWindow_withErr (x : Option Err) (s : State) :
    shiftWindow (withErr x s) = (shiftWindow s).map (withErr x) := by
  have hsame := sameBuffers_withErr x s
  rw [shiftWindow, shiftWindow, windowStart_withErr]
  cases windowStart s with
  | error f => rfl
  | ok start =>
    simp only [hsame.extract]
    cases extract s .haystack start 1 with
    | error f => rfl
    | ok out =>
      have hwend : (withErr x s).wend = s.wend := rfl
      simp only [hwend]
      cases extract s .haystack s.wend.toNat 1 with
      | error f => rfl
      | ok inc => rfl

theorem packNibble_withErr (x : Option Err) (nib fill : Nat) (s : State) :
    packNibble nib fill (withErr x s) = (packNibble nib fill s).map (withErr x) := by
  have hcap : (withErr x s).patCap = s.patCap := rfl
  simp only [packNibble, writePattern, hcap]
  split
  · rfl
  · rfl

theorem consumeNibble_withErr (x : Option Err) (v : Nat) (s : State) :
    consumeNibble v (withErr x s) = (consumeNibble v s).map (withErr x) := by
  have hfill : (withErr x s).pfill = s.pfill := rfl
  have hpbits : (withErr x s).pbits = s.pbits := rfl
  have hwidth : chunkWidth (withErr x s) = chunkWidth s := rfl
  simp only [consumeNibble, hfill, hpbits, hwidth, packNibble_withErr]
  split
  · cases packNibble (paddedChunk v (chunkWidth s)) s.pfill.toNat s with
    | error f => rfl
    | ok u => rfl
  · rfl

theorem scanLoop_agree (x : Option Err) (k : Nat) (s : State) :
    AgreeButErr (scanLoop k s) (scanLoop k (withErr x s)) := by
  induction k generalizing s with
  | zero =>
    exact .andThen (checkWindow_withErr x s) fun c =>
      .ite (.respond x _ _ _) (.respond x _ _ _)
  | succ k ih =>
    exact .andThen (checkWindow_withErr x s) fun c =>
      .ite (.respond x _ _ _) (.andThen_state x (shiftWindow_withErr x s) ih)

theorem execRdreg_agree (x : Option Err) {r : Nat} (hr : r ≠ 2) (s : State) :
    AgreeButErr (execRdreg r s) (execRdreg r (withErr x s)) := by
  have hreg : (withErr x s).reg r = s.reg r := reg_setErr x hr
  unfold execRdreg
  rw [hreg]
  split
  · exact .respond x _ _ _
  · exact .raise x _ _

/-- Every command but the read of `ERR` ends alike whatever `ERR` holds. -/
theorem exec_agree (x : Option Err) (hi : i ≠ .rdreg 2) (s : State) :
    AgreeButErr (exec i s) (exec i (withErr x s)) := by
  have hsame := sameBuffers_withErr x s
  cases i with
  | nop => exact .respond x _ _ _
  | haylen n => exact .ite (.raise x _ _) (.respond x _ _ _)
  | patbegin n => exact .ite (.raise x _ _) (.respond x _ _ _)
  | patnib v =>
    exact .ite (.raise x _ _) (.ite (.raise x _ _)
      (.andThen_state x (consumeNibble_withErr x v s) (.respond x _ _)))
  | scan =>
    exact .ite (.raise x _ _) (.ite (.respond x _ _ _) (.ite (.respond x _ _ _)
      (.andThen hsame.hashInit fun h => scanLoop_agree x _ _)))
  | matchAt off =>
    exact .ite (.raise x _ _) (.ite (.raise x _ _)
      (.andThen (hsame.patternMatches off) fun _ => .respond x _ _ _))
  | exth off cnt =>
    exact .ite (.raise x _ _) (.andThen (hsame.extract _ _ _) fun _ => .respond x _ _ _)
  | extp off cnt =>
    exact .ite (.raise x _ _) (.ite (.raise x _ _)
      (.andThen (hsame.extract _ _ _) fun _ => .respond x _ _ _))
  | rdreg r => exact execRdreg_agree x (fun hr => hi (hr ▸ rfl)) s
  | clrerr => exact .next _ none
  | sreset => exact .next _ none
  | winit =>
    exact .ite (.raise x _ _) (.ite (.raise x _ _)
      (.andThen hsame.hashInit fun h => .respond x _ _ (openWindow h s)))
  | wcheck =>
    exact .ite (.raise x _ _) (.andThen (checkWindow_withErr x s) fun _ => .respond x _ _ _)
  | wshift =>
    exact .ite (.raise x _ _) (.ite (.raise x _ _)
      (.andThen_state x (shiftWindow_withErr x s) fun u => .respond x _ _ u))

theorem exec_withErr (hi : i ≠ .rdreg 2) (x : Option Err) (h : exec i s = .next t) :
    ∃ y, exec i { s with err := x } = .next { t with err := y } := by
  have hagree := exec_agree x hi s
  rw [h] at hagree
  generalize hr : exec i (withErr x s) = r at hagree
  cases hagree with
  | next _ y => exact ⟨y, hr⟩

/-- Settles O38: the clauses about one run by the list of the ends of a command, an error word being told from a success
by its `ERRC`; the last clause by running the command beside itself with another `ERR`. -/
theorem errIsStickyAndBlocksNothing : Obligations.ErrIsStickyAndBlocksNothing := by
  intro i s t h
  refine ⟨⟨errValue_le _, errValue_eq_zero⟩, fun e hrsp => ?_, fun hne => ?_, ⟨?_, rfl⟩,
    fun hi x => exec_withErr hi x h⟩
  · obtain ⟨e', hrsp', herr⟩ | ⟨hsuccess, -⟩ := (exec_ends h).rsp_err
    · obtain rfl := errorWord_injective (Option.some.inj (hrsp'.symm.trans hrsp))
      rw [herr]
      cases s.err <;> rfl
    · exact absurd hrsp (hsuccess e)
  · obtain ⟨e, hrsp, -⟩ | ⟨-, hsame | hclear⟩ := (exec_ends h).rsp_err
    · exact .inl ⟨e, hrsp⟩
    · exact absurd hsame hne
    · exact .inr hclear
  · rintro (rfl | rfl)
    · exact respond_next.mp h ▸ rfl
    · exact respond_next.mp h ▸ rfl

end Sys2Proof.Machine
end

section
/-! PROOFS. What commands and the host do to the memories: no read is outside its memory (20_memory.md R70), a command
writes at most the one byte that `PATNIB` packs (R69, R71), and the host's write is one byte of the haystack (R73). -/

namespace Sys2Proof.Machine

variable {s t u : State} {i : Instr}

/-! ### No stop -/

theorem hostMove_answers (inv : Invariants s) (m : HostMove) : ∃ t, hostMove m s = .next t := by
  cases m with
  | send w =>
    obtain ⟨t, -, ht, -⟩ := deliver_responds inv w
    exact ⟨t, ht⟩
  | write a b => exact ⟨hostWrite a b s, rfl⟩
  | reset => exact ⟨hardReset s, rfl⟩
  | sendReset w => exact ⟨droppedCommand w s, rfl⟩

theorem step_of_host_cons {m : HostMove} {rest : List HostMove} (h : s.host = m :: rest) :
    step s = hostMove m { s with host := rest } := by
  simp only [step, h]

/-- Settles O51: with no move pending the block idles; a move finds the invariants, which say nothing of the queue. -/
theorem stepNeverStops : Obligations.StepNeverStops := by
  intro s inv
  cases hhost : s.host with
  | nil => exact ⟨s, step_of_host_nil hhost⟩
  | cons m rest =>
    rw [step_of_host_cons hhost]
    exact hostMove_answers (inv.withHost rest) m

/-! ### The frame of a command -/

/-- What no command changes: haystack memory (20_memory.md R69) and the model's own fields (log 1, log 4, log 7). -/
structure SameOutside (s t : State) : Prop where
  hm : t.hm = s.hm
  patCap : t.patCap = s.patCap
  host : t.host = s.host
  freeIx : t.freeIx = s.freeIx

/-- The contents of a space are those of its memory. -/
theorem byteAt_congr {sp : Space} (h : t.memory sp = s.memory sp) (a : Nat) : t.byteAt sp a = s.byteAt sp a := by
  rw [State.byteAt, State.byteAt, h]

/-- A consumed nibble changes no byte but the one at `PFILL div 8` (41_pattern_compiler.md R145). -/
theorem consumed_byteAt_of_ne (v : Nat) {a : Nat} (ha : a ≠ s.pfill.toNat / 8) :
    (consumed v s).byteAt .pattern a = s.byteAt .pattern a := by
  rw [consumed, advanceCompile_byteAt, packed_byteAt, if_neg ha]

theorem Effect.sameOutside (heff : Effect s i u) : SameOutside s u := by
  cases heff with
  | wshift _ _ hshift =>
    obtain ⟨l, e, rfl⟩ := shiftWindow_eq_atWindow hshift
    exact ⟨rfl, rfl, rfl, rfl⟩
  | scanFound _ _ _ _ hslid | scanNotFound _ _ _ _ hslid =>
    obtain ⟨l, e, rfl⟩ := SlidTo.eq_atWindow hslid
    exact ⟨rfl, rfl, rfl, rfl⟩
  | _ => exact ⟨rfl, rfl, rfl, rfl⟩

/-- Pattern memory is written by an accepted nibble only (R71). -/
theorem Effect.pm_eq (heff : Effect s i u) : u.pm = s.pm ∨ ∃ v, i = .patnib v ∧ u = consumed v s := by
  cases heff with
  | patnib v => exact .inr ⟨v, rfl, rfl⟩
  | wshift _ _ hshift =>
    obtain ⟨l, e, rfl⟩ := shiftWindow_eq_atWindow hshift
    exact .inl rfl
  | scanFound _ _ _ _ hslid | scanNotFound _ _ _ _ hslid =>
    obtain ⟨l, e, rfl⟩ := SlidTo.eq_atWindow hslid
    exact .inl rfl
  | _ => exact .inl rfl

theorem Ends.sameOutside (h : Ends s i t) : SameOutside s t := by
  cases h with
  | failed | malformed => exact ⟨rfl, rfl, rfl, rfl⟩
  | done _ _ heff => exact { heff.sameOutside with }

/-- A command leaves pattern memory alone, or it is a `PATNIB` and leaves every byte but the one it packs. -/
theorem Ends.pm_eq (h : Ends s i t) :
    t.pm = s.pm ∨ ∃ v, i = .patnib v ∧ ∀ a ≠ s.pfill.toNat / 8, t.byteAt .pattern a = s.byteAt .pattern a := by
  cases h with
  | failed | malformed => exact .inl rfl
  | done _ _ heff =>
    obtain hpm | ⟨v, hi, rfl⟩ := heff.pm_eq
    · exact .inl hpm
    · exact .inr ⟨v, hi, fun a ha => consumed_byteAt_of_ne v ha⟩

/-- Settles O40: by the list of the ends of a command. -/
theorem commandsWriteOneByteAtMost : Obligations.CommandsWriteOneByteAtMost := by
  intro i s t h
  obtain ⟨hhm, hcap, hhost, hfree⟩ := (exec_ends h).sameOutside
  refine ⟨byteAt_congr (sp := .haystack) hhm, hhm, ?_, ?_, hcap, hhost, hfree⟩
  · intro a ha
    obtain hpm | ⟨v, rfl, hbytes⟩ := (exec_ends h).pm_eq
    · exact byteAt_congr (sp := .pattern) hpm a
    · exact hbytes a fun heq => ha (congrArg some heq.symm)
  · intro hi
    obtain hpm | ⟨v, rfl, -⟩ := (exec_ends h).pm_eq
    · exact hpm
    · cases hi

/-! ### The host's write -/

/-- Settles O47: the write puts one byte, and a read after it finds that byte or what was there. -/
theorem hostWriteChangesOneHaystackByte : Obligations.HostWriteChangesOneHaystackByte := by
  intro s a b rest h
  exact ⟨_, step_of_host_cons h, rfl, fun x => byteAt_putHaystack s a.toNat x b⟩

end Sys2Proof.Machine
end

section
/-! PROOFS. Pad bits and pattern memory beyond the pattern (20_memory.md R70, 90_conflicts.md C3,
93_implementation_defined.md U3, U5): the accessor answers the number of the bits it is asked for, all of them inside
the pattern, so every command but `PATNIB` runs the same on a pattern memory with the same pattern in it. -/

namespace Sys2Proof.Machine

variable {s u : State} {pm : Memory}

/-! ### The accessor over bits -/

/-- The accessor in one equation: its preconditions, then the bytes it reads, then the number of the bits it is asked
for (40_bitfield_accessor.md R120 to R123). -/
theorem extract_eq (s : State) (sp : Space) (off c : Nat) :
    extract s sp off c =
      if 1 ≤ c ∧ c ≤ 8 ∧ off + c ≤ s.spaceBits sp then
        if off / 8 < s.spaceBytes sp then
          if off % 8 + c ≤ 8 ∨ off / 8 + 1 < s.spaceBytes sp then .ok (bitNumber (s.bitAt sp) off c)
          else .error (.noSuchByte sp (off / 8 + 1))
        else .error (.noSuchByte sp (off / 8))
      else .error .accessorDomain := by
  split_ifs with hdomain hfirst hsecond
  · obtain ⟨v, hv⟩ := extract_answers hdomain (by omega)
    rw [hv, extract_eq_bitNumber hv]
  · obtain ⟨hspan, hmissing⟩ := not_or.mp hsecond
    have hmore : c - min c (8 - off % 8) ≠ 0 := by omega
    simp only [extract, if_pos hdomain, readByte, if_pos hfirst, if_neg hmore, if_neg hmissing]
  · simp only [extract, if_pos hdomain, readByte, if_neg hfirst]
  · exact if_neg hdomain

/-! ### Another pattern memory -/

/-- The state with another pattern memory. -/
def withPattern (pm : Memory) (s : State) : State := { s with pm := pm }

/-- The other memory holds the same pattern: the first `PBITS` bits. -/
def SamePattern (pm : Memory) (s : State) : Prop :=
  ∀ k < s.pbits.toNat, (withPattern pm s).bitAt .pattern k = s.bitAt .pattern k

theorem extract_withPattern (h : SamePattern pm s) (sp : Space) (off c : Nat) :
    extract (withPattern pm s) sp off c = extract s sp off c := by
  cases sp with
  | haystack => rfl
  | pattern =>
    rw [extract_eq, extract_eq]
    refine ite_congr rfl (fun ⟨_, _, hin⟩ => ?_) fun _ => rfl
    have hinside : off + c ≤ s.pbits.toNat := hin
    rw [bitNumber_congr fun k hk => h (off + k) (by omega)]
    rfl

theorem hashChunks_withPattern (pm : Memory) (s : State) (n fuel j v : Nat) :
    hashChunks (withPattern pm s) n fuel j v = hashChunks s n fuel j v := by
  induction fuel generalizing j v with
  | zero => rfl
  | succ fuel ih =>
    have hread (off c : Nat) : extract (withPattern pm s) .haystack off c = extract s .haystack off c := rfl
    simp only [hashChunks, hread, ih]

/-- The initial hash reads the haystack only (42_rolling_hash_scanner.md R162). -/
theorem hashInit_withPattern (pm : Memory) (s : State) : hashInit (withPattern pm s) = hashInit s :=
  hashChunks_withPattern pm s _ _ _ _

theorem matchChunks_withPattern (h : SamePattern pm s) (start n fuel j : Nat) :
    matchChunks (withPattern pm s) start n fuel j = matchChunks s start n fuel j := by
  induction fuel generalizing j with
  | zero => rfl
  | succ fuel ih => simp only [matchChunks, extract_withPattern h, ih]

theorem patternMatches_withPattern (h : SamePattern pm s) (start : Nat) :
    patternMatches (withPattern pm s) start = patternMatches s start :=
  matchChunks_withPattern h start _ _ _

theorem checkWindow_withPattern (h : SamePattern pm s) : checkWindow (withPattern pm s) = checkWindow s := by
  simp only [checkWindow, patternMatches_withPattern h]
  rfl

/-- The shift reads the haystack only (R166). -/
theorem shiftWindow_withPattern (pm : Memory) (h : shiftWindow s = .ok u) :
    shiftWindow (withPattern pm s) = .ok (withPattern pm u) := by
  obtain ⟨hstart, out, inc, hout, hinc, rfl⟩ := shiftWindow_ok h
  have hstart' : windowStart (withPattern pm s) = .ok (s.wend.toNat - s.pbits.toNat) :=
    windowStart_ok.mpr ⟨hstart, rfl⟩
  have hout' : extract (withPattern pm s) .haystack (s.wend.toNat - s.pbits.toNat) 1 = .ok out := hout
  have hinc' : extract (withPattern pm s) .haystack (withPattern pm s).wend.toNat 1 = .ok inc := hinc
  simp only [shiftWindow, hstart', hout', hinc']
  rfl

/-! ### Commands that run alike -/

/-- Where the first command completes, the second does with the same response and registers, on the other pattern
memory. -/
def Carries (pm : Memory) (x y : Result) : Prop := ∀ t, x = .next t → y = .next (withPattern pm t)

namespace Carries

theorem raise (e : Err) (s : State) : Carries pm (raise e s) (raise e (withPattern pm s)) := by
  intro t ht
  rw [raise_next.mp ht]
  rfl

theorem respond (k : Kind) (val : BitVec 24) (s : State) :
    Carries pm (respond k val s) (respond k val (withPattern pm s)) := by
  intro t ht
  rw [respond_next.mp ht]
  rfl

/-- Both take the same branch. -/
theorem ite {p : Prop} [Decidable p] {a a' b b' : Result} (ha : Carries pm a a') (hb : Carries pm b b') :
    Carries pm (if p then a else b) (if p then a' else b') := by
  split
  · exact ha
  · exact hb

/-- Both go on from what a partial operation answered. -/
theorem andThen {α : Type} {p p' : Except Fault α} {k k' : α → Result} (f : α → α)
    (hp : ∀ a, p = .ok a → p' = .ok (f a)) (hk : ∀ a, p = .ok a → Carries pm (k a) (k' (f a))) :
    Carries pm (andThen p k) (andThen p' k') := by
  intro t ht
  obtain ⟨a, ha, hka⟩ := andThen_next.mp ht
  exact andThen_next.mpr ⟨f a, hp a ha, hk a ha t hka⟩

/-- Both go on from the same answer. -/
theorem andThen_same {α : Type} {p p' : Except Fault α} {k k' : α → Result} (hp : p' = p)
    (hk : ∀ a, Carries pm (k a) (k' a)) : Carries pm (Machine.andThen p k) (Machine.andThen p' k') :=
  andThen id (fun _ ha => hp.trans ha) fun a _ => hk a

end Carries

theorem scanLoop_carries {k : Nat} (h : SamePattern pm s) :
    Carries pm (scanLoop k s) (scanLoop k (withPattern pm s)) := by
  induction k generalizing s with
  | zero =>
    exact .andThen_same (checkWindow_withPattern h) fun c => .ite (.respond _ _ _) (.respond _ _ _)
  | succ k ih =>
    refine .andThen_same (checkWindow_withPattern h) fun c => .ite (.respond _ _ _) ?_
    refine .andThen (withPattern pm) (fun u hu => shiftWindow_withPattern pm hu) fun u hu => ih ?_
    obtain ⟨l, e, rfl⟩ := shiftWindow_eq_atWindow hu
    exact h

theorem execRdreg_carries (r : Nat) (s : State) : Carries pm (execRdreg r s) (execRdreg r (withPattern pm s)) := by
  have hreg : (withPattern pm s).reg r = s.reg r := rfl
  unfold execRdreg
  rw [hreg]
  split
  · exact .respond _ _ _
  · exact .raise _ _

/-- Every command but `PATNIB` reads pattern memory through the accessor only. -/
theorem exec_carries {i : Instr} (hi : isPatnib i = false) (h : SamePattern pm s) :
    Carries pm (exec i s) (exec i (withPattern pm s)) := by
  cases i with
  | patnib v => cases hi
  | nop => exact .respond _ _ _
  | haylen n => exact .ite (.raise _ _) (.respond _ _ { forgetSearch s with hbytes := BitVec.ofNat 21 n })
  | patbegin n => exact .ite (.raise _ _) (.respond _ _ (openCompile n s))
  | scan =>
    exact .ite (.raise _ _) (.ite (.respond _ _ _) (.ite (.respond _ _ _)
      (.andThen_same (hashInit_withPattern pm s) fun v => scanLoop_carries (s := openWindow v s) h)))
  | matchAt off =>
    exact .ite (.raise _ _) (.ite (.raise _ _)
      (.andThen_same (patternMatches_withPattern h off) fun _ => .respond _ _ _))
  | exth off cnt =>
    exact .ite (.raise _ _) (.andThen_same (extract_withPattern h _ _ _) fun _ => .respond _ _ _)
  | extp off cnt =>
    exact .ite (.raise _ _) (.ite (.raise _ _)
      (.andThen_same (extract_withPattern h _ _ _) fun _ => .respond _ _ _))
  | rdreg r => exact execRdreg_carries r s
  | clrerr => exact .respond _ _ (clearError s)
  | sreset => exact .respond _ _ (resetRegisters s)
  | winit =>
    exact .ite (.raise _ _) (.ite (.raise _ _)
      (.andThen_same (hashInit_withPattern pm s) fun v => .respond _ _ (openWindow v s)))
  | wcheck =>
    exact .ite (.raise _ _) (.andThen_same (checkWindow_withPattern h) fun _ => .respond _ _ _)
  | wshift =>
    exact .ite (.raise _ _) (.ite (.raise _ _)
      (.andThen (withPattern pm) (fun u hu => shiftWindow_withPattern pm hu) fun u _ => .respond _ _ u))

/-- Settles O31: by running the command beside itself on the other pattern memory. -/
theorem padBitsNeverMatter : Obligations.PadBitsNeverMatter :=
  fun _ _ t _ hi hbits h => exec_carries hi hbits t h

end Sys2Proof.Machine
end

section
/-! PROOFS. The three fields of a command word (30_encoding.md R91, R92). A word is its three fields, and every command
names the three it wants; decoding and encoding are both comparisons with that one table. -/

namespace Sys2Proof.Machine

/-- `OP`, `B` and `A`, R91. -/
structure Fields where
  op : Nat
  b : Nat
  a : Nat

/-- The fields of a word. -/
def wordFields (w : Word) : Fields := ⟨opField w, bField w, aField w⟩

/-- The fields of a command's word: its opcode with its operands in the fields of its format, zero in the fields that
the format does not use (R92, R101). `encode_eq_packFields` ties this table to the encoder and `decode_eq_ok_iff` to
the decoder. -/
def instrFields : Instr → Fields
  | .nop => ⟨0x0, 0, 0⟩
  | .haylen bytes => ⟨0x1, 0, bytes⟩
  | .patbegin nbits => ⟨0x2, 0, nbits⟩
  | .patnib v => ⟨0x3, 0, v⟩
  | .scan => ⟨0x4, 0, 0⟩
  | .matchAt off => ⟨0x5, 0, off⟩
  | .exth off cnt => ⟨0x6, cnt, off⟩
  | .extp off cnt => ⟨0x7, cnt, off⟩
  | .rdreg r => ⟨0x8, 0, r⟩
  | .clrerr => ⟨0x9, 0, 0⟩
  | .sreset => ⟨0xA, 0, 0⟩
  | .winit => ⟨0xB, 0, 0⟩
  | .wcheck => ⟨0xC, 0, 0⟩
  | .wshift => ⟨0xD, 0, 0⟩

variable {i : Instr} {w : Word}

/-! ### Words and their fields -/

theorem opField_eq_div (w : Word) : opField w = w.toNat / 2 ^ 28 := by
  have := w.isLt
  rw [opField, BitVec.extractLsb'_toNat, Nat.shiftRight_eq_div_pow]
  omega

theorem bField_eq_mod (w : Word) : bField w = w.toNat / 2 ^ 24 % 2 ^ 4 := by
  rw [bField, BitVec.extractLsb'_toNat, Nat.shiftRight_eq_div_pow]

theorem aField_eq_mod (w : Word) : aField w = w.toNat % 2 ^ 24 := by
  rw [aField, BitVec.extractLsb'_toNat, Nat.shiftRight_zero]

/-- Fields within their widths do not overlap. -/
theorem packFields_toNat {op b a : Nat} (hop : op < 2 ^ 4) (hb : b < 2 ^ 4) (ha : a < 2 ^ 24) :
    (packFields op b a).toNat = op * 2 ^ 28 + b * 2 ^ 24 + a := by
  rw [packFields, BitVec.toNat_ofNat]
  omega

theorem wordFields_packFields {op b a : Nat} (hop : op < 2 ^ 4) (hb : b < 2 ^ 4) (ha : a < 2 ^ 24) :
    wordFields (packFields op b a) = ⟨op, b, a⟩ := by
  rw [wordFields, opField_eq_div, bField_eq_mod, aField_eq_mod, packFields_toNat hop hb ha, Fields.mk.injEq]
  omega

/-- The three fields cover the word. -/
theorem packFields_wordFields (w : Word) : packFields (opField w) (bField w) (aField w) = w := by
  apply BitVec.eq_of_toNat_eq
  rw [packFields, BitVec.toNat_ofNat, opField_eq_div, bField_eq_mod, aField_eq_mod]
  have := w.isLt
  omega

/-! ### Commands and their fields -/

theorem encode_eq_packFields (i : Instr) :
    encode i = packFields (instrFields i).op (instrFields i).b (instrFields i).a := by
  cases i <;> rfl

theorem instrFields_op_lt (i : Instr) : (instrFields i).op < 0xE := by
  cases i <;> simp [instrFields]

/-- The operands of a command that can be assembled fit the fields they stand in (R101). -/
theorem instrFields_lt (h : i.wellFormed = true) : (instrFields i).b < 2 ^ 4 ∧ (instrFields i).a < 2 ^ 24 := by
  cases i
  case nop | scan | clrerr | sreset | winit | wcheck | wshift => decide
  case haylen | patbegin | patnib | matchAt | rdreg => exact ⟨Nat.two_pow_pos 4, of_decide_eq_true h⟩
  case exth | extp =>
    obtain ⟨ha, hb⟩ := (Bool.and_eq_true _ _).mp h
    exact ⟨of_decide_eq_true hb, of_decide_eq_true ha⟩

/-- A word decodes to a command if and only if its fields are that command's (R92 to R97). -/
theorem decode_eq_ok_iff : decode w = .ok i ↔ wordFields w = instrFields i := by
  constructor
  · intro h
    unfold decode at h
    split at h
    case h_1 hop | h_5 hop | h_10 hop | h_11 hop | h_12 hop | h_13 hop | h_14 hop =>
      obtain ⟨⟨hb, ha⟩, rfl⟩ := formatZ_ok.mp h
      rw [wordFields, hop, hb, ha, instrFields]
    case h_2 hop | h_3 hop | h_4 hop | h_6 hop | h_9 hop =>
      obtain ⟨hb, rfl⟩ := formatA_ok.mp h
      rw [wordFields, hop, hb, instrFields]
    case h_7 hop | h_8 hop =>
      obtain rfl := formatBA_ok.mp h
      rw [wordFields, hop, instrFields]
    case h_15 => cases h
  · intro h
    have hop : opField w = (instrFields i).op := congrArg Fields.op h
    have hb : bField w = (instrFields i).b := congrArg Fields.b h
    have ha : aField w = (instrFields i).a := congrArg Fields.a h
    unfold decode
    rw [hop]
    cases i
    case nop | scan | clrerr | sreset | winit | wcheck | wshift => exact formatZ_ok.mpr ⟨⟨hb, ha⟩, rfl⟩
    case haylen | patbegin | patnib | matchAt | rdreg => exact formatA_ok.mpr ⟨hb, congrArg _ ha⟩
    case exth | extp => exact formatBA_ok.mpr (congrArg₂ _ ha hb)

end Sys2Proof.Machine
end

section
/-! PROOFS. The decoder and the encoder undo each other (30_encoding.md R97, R101). -/

namespace Sys2Proof.Machine

variable {i : Instr} {w : Word}

theorem decode_encode (h : i.wellFormed = true) : decode (encode i) = .ok i := by
  obtain ⟨hb, ha⟩ := instrFields_lt h
  have hop : (instrFields i).op < 2 ^ 4 := (instrFields_op_lt i).trans (by decide)
  rw [decode_eq_ok_iff, encode_eq_packFields, wordFields_packFields hop hb ha]

theorem encode_of_decode (h : decode w = .ok i) : encode i = w := by
  rw [encode_eq_packFields, ← decode_eq_ok_iff.mp h]
  exact packFields_wordFields w

theorem decode_eq_ok_iff_encode : decode w = .ok i ↔ i.wellFormed = true ∧ encode i = w :=
  ⟨fun h => ⟨decode_wellFormed h, encode_of_decode h⟩, fun ⟨hwf, henc⟩ => henc ▸ decode_encode hwf⟩

/-- A word on the port is the same word in a table row of 32 bits. -/
theorem decodeTableWord_toNat : decodeTableWord 32 w.toNat = some i ↔ decode w = .ok i := by
  rw [decodeTableWord_eq_some, Nat.mod_eq_of_lt w.isLt, BitVec.ofNat_toNat, BitVec.setWidth_eq]

/-- Settles O1: the fields of the packed word are those the command put there. -/
theorem decodeOfEncodeIsTheCommand : Obligations.DecodeOfEncodeIsTheCommand :=
  fun _ hwf => ⟨decode_encode hwf, decodeTableWord_toNat.mpr (decode_encode hwf)⟩

/-- Settles O2: the three fields that the decoder checks or hands on cover the word. -/
theorem encodeOfDecodeIsTheWord : Obligations.EncodeOfDecodeIsTheWord :=
  fun _ _ => decode_eq_ok_iff_encode.mp

/-- Settles O5: ten words, each decoded. -/
theorem writtenWordsDecode : Obligations.WrittenWordsDecode := by
  refine ⟨?_, ?_, ?_, ?_, ?_, ?_, ?_, ?_, ?_, ?_⟩ <;> decide

end Sys2Proof.Machine
end

section
/-! PROOFS. The opcode map (30_encoding.md R94): the columns `match` and `mask` pick out exactly the words that the
decoder accepts. -/

namespace Sys2Proof.Machine

variable {i : Instr} {w m : Word} {op : Nat}

/-- The command of the same row with the operands `a` and `b`. -/
def withOperands (a b : Nat) : Instr → Instr
  | .haylen _ => .haylen a
  | .patbegin _ => .patbegin a
  | .patnib _ => .patnib a
  | .matchAt _ => .matchAt a
  | .exth _ _ => .exth a b
  | .extp _ _ => .extp a b
  | .rdreg _ => .rdreg a
  | i => i

theorem matchMask_withOperands (a b : Nat) (i : Instr) : (withOperands a b i).matchMask = i.matchMask := by
  cases i <;> rfl

/-! ### From a command to its row -/

theorem encode_and_mask (h : i.wellFormed = true) : encode i &&& i.matchMask.2 = i.matchMask.1 := by
  cases i with
  | nop => exact Laws.EncodingFitsMap.nop h
  | haylen bytes => exact Laws.EncodingFitsMap.haylen bytes h
  | patbegin nbits => exact Laws.EncodingFitsMap.patbegin nbits h
  | patnib v => exact Laws.EncodingFitsMap.patnib v h
  | scan => exact Laws.EncodingFitsMap.scan h
  | matchAt off => exact Laws.EncodingFitsMap.matchAt off h
  | exth off cnt => exact Laws.EncodingFitsMap.exth off cnt h
  | extp off cnt => exact Laws.EncodingFitsMap.extp off cnt h
  | rdreg r => exact Laws.EncodingFitsMap.rdreg r h
  | clrerr => exact Laws.EncodingFitsMap.clrerr h
  | sreset => exact Laws.EncodingFitsMap.sreset h
  | winit => exact Laws.EncodingFitsMap.winit h
  | wcheck => exact Laws.EncodingFitsMap.wcheck h
  | wshift => exact Laws.EncodingFitsMap.wshift h

theorem operandsAre_of_wordFields (h : wordFields w = instrFields i) : operandsAre (aField w) (bField w) i := by
  have hb : bField w = (instrFields i).b := congrArg Fields.b h
  have ha : aField w = (instrFields i).a := congrArg Fields.a h
  cases i
  case nop | scan | clrerr | sreset | winit | wcheck | wshift => trivial
  case haylen | patbegin | patnib | matchAt | rdreg => exact ha.symm
  case exth | extp => exact ⟨ha.symm, hb.symm⟩

/-! ### From a row to its command -/

/-- A mask that is all ones over a field keeps the field. -/
theorem opField_and (hm : m.extractLsb' 28 4 = BitVec.allOnes 4) : opField (w &&& m) = opField w := by
  rw [opField, BitVec.extractLsb'_and, hm, BitVec.and_allOnes, opField]

@[inherit_doc opField_and]
theorem bField_and (hm : m.extractLsb' 24 4 = BitVec.allOnes 4) : bField (w &&& m) = bField w := by
  rw [bField, BitVec.extractLsb'_and, hm, BitVec.and_allOnes, bField]

/-- Format BA's mask fixes `OP`. -/
theorem wordFields_of_and_formatBA (hop : op < 2 ^ 4) (h : w &&& 0xF0000000#32 = packFields op 0 0) :
    wordFields w = ⟨op, bField w, aField w⟩ := by
  have hmatch := wordFields_packFields hop (b := 0) (a := 0) (by decide) (by decide)
  have hopw : opField w = op := by
    rw [← opField_and (m := 0xF0000000#32) rfl, h]
    exact congrArg Fields.op hmatch
  rw [wordFields, hopw]

/-- Format A's mask fixes `OP` and `B`. -/
theorem wordFields_of_and_formatA (hop : op < 2 ^ 4) (h : w &&& 0xFF000000#32 = packFields op 0 0) :
    wordFields w = ⟨op, 0, aField w⟩ := by
  have hmatch := wordFields_packFields hop (b := 0) (a := 0) (by decide) (by decide)
  have hopw : opField w = op := by
    rw [← opField_and (m := 0xFF000000#32) rfl, h]
    exact congrArg Fields.op hmatch
  have hbw : bField w = 0 := by
    rw [← bField_and (m := 0xFF000000#32) rfl, h]
    exact congrArg Fields.b hmatch
  rw [wordFields, hopw, hbw]

/-- Format Z's mask fixes the word. -/
theorem wordFields_of_and_formatZ (hop : op < 2 ^ 4) (h : w &&& 0xFFFFFFFF#32 = packFields op 0 0) :
    wordFields w = ⟨op, 0, 0⟩ := by
  have hw : w = packFields op 0 0 := (BitVec.and_allOnes (x := w)).symm.trans h
  rw [hw, wordFields_packFields hop (by decide) (by decide)]

theorem decode_of_and_mask (h : w &&& i.matchMask.2 = i.matchMask.1) :
    decode w = .ok (withOperands (aField w) (bField w) i) := by
  rw [decode_eq_ok_iff]
  cases i
  case nop | scan | clrerr | sreset | winit | wcheck | wshift => exact wordFields_of_and_formatZ (by decide) h
  case haylen | patbegin | patnib | matchAt | rdreg => exact wordFields_of_and_formatA (by decide) h
  case exth | extp => exact wordFields_of_and_formatBA (by decide) h

/-- Settles O3: the word of a command fits its row, and a row fixes every field that holds no operand of it. -/
theorem decodeFollowsTheOpcodeMap : Obligations.DecodeFollowsTheOpcodeMap := by
  refine fun w => ⟨fun i h => ⟨?_, operandsAre_of_wordFields (decode_eq_ok_iff.mp h)⟩, fun i h =>
    ⟨_, decode_of_and_mask h, matchMask_withOperands _ _ i⟩⟩
  rw [← encode_of_decode h]
  exact encode_and_mask (decode_wellFormed h)

end Sys2Proof.Machine
end

section
/-! PROOFS. Illegal words (30_encoding.md R95, R96): the column `E_ILLEGAL` of 60_exceptions.md R221 is what the decoder
refuses, and what such a word does. -/

namespace Sys2Proof.Machine

variable {i : Instr} {w : Word} {e : Illegal}

theorem illegalWord_eq_true_iff : illegalWord w = true ↔
    0xE ≤ opField w ∨
    (opField w ∈ [0x0, 0x4, 0x9, 0xA, 0xB, 0xC, 0xD] ∧ (bField w ≠ 0 ∨ aField w ≠ 0)) ∨
    (opField w ∈ [0x1, 0x2, 0x3, 0x5, 0x8] ∧ bField w ≠ 0) := by
  simp only [illegalWord, Bool.or_eq_true, decide_eq_true_iff, or_assoc]

theorem formatZ_error {f : Instr} (h : formatZ w f = .error e) : bField w ≠ 0 ∨ aField w ≠ 0 := by
  by_contra! hzero
  rw [formatZ_ok.mpr ⟨hzero, rfl⟩] at h
  cases h

theorem formatA_error {f : Nat → Instr} (h : formatA w f = .error e) : bField w ≠ 0 := by
  intro hzero
  rw [formatA_ok.mpr ⟨hzero, rfl⟩] at h
  cases h

theorem illegalWord_of_decode_error (h : decode w = .error e) : illegalWord w = true := by
  rw [illegalWord_eq_true_iff]
  unfold decode at h
  split at h
  case h_1 hop | h_5 hop | h_10 hop | h_11 hop | h_12 hop | h_13 hop | h_14 hop =>
    exact .inr (.inl ⟨by simp [hop], formatZ_error h⟩)
  case h_2 hop | h_3 hop | h_4 hop | h_6 hop | h_9 hop => exact .inr (.inr ⟨by simp [hop], formatA_error h⟩)
  case h_7 | h_8 => cases h
  case h_15 =>
    simp only [imp_false] at *
    exact .inl (by omega)

theorem illegalWord_of_decode_ok (h : decode w = .ok i) : illegalWord w = false := by
  have hfields := decode_eq_ok_iff.mp h
  have hop : opField w = (instrFields i).op := congrArg Fields.op hfields
  have hb : bField w = (instrFields i).b := congrArg Fields.b hfields
  have ha : aField w = (instrFields i).a := congrArg Fields.a hfields
  cases i <;> simp [illegalWord, hop, hb, ha, instrFields]

theorem exists_decode_ok_iff : (∃ i, decode w = .ok i) ↔ illegalWord w = false := by
  refine ⟨fun ⟨_, h⟩ => illegalWord_of_decode_ok h, fun hlegal => ?_⟩
  cases hdec : decode w with
  | ok i => exact ⟨i, rfl⟩
  | error e => rw [illegalWord_of_decode_error hdec] at hlegal; cases hlegal

theorem deliver_of_illegalWord (h : illegalWord w = true) (s : State) :
    deliver w s = .next (afterError .illegal s) := by
  cases hdec : decode w with
  | ok i => rw [illegalWord_of_decode_ok hdec] at h; cases h
  | error e => rw [deliver_of_decode_error hdec, raise]

/-- `E_ILLEGAL` written out: the first error is kept (10_state.md R24) and the word is `0x10000000` (R100). -/
theorem afterError_illegal (s : State) : afterError .illegal s =
    { s with err := if s.err = none then some .illegal else s.err, rsp := some 0x10000000#32 } := by
  have hfirst : s.err.or (some .illegal) = if s.err = none then some .illegal else s.err := by
    cases s.err <;> rfl
  rw [afterError, hfirst]
  rfl

/-- Settles O4: each of the three kinds is in the column `E_ILLEGAL`, no word with `OP` 6 or 7 is, and a word that
decodes to `NOP` is its encoding. -/
theorem illegalWordsRaiseIllegal : Obligations.IllegalWordsRaiseIllegal := by
  intro w s err
  have hraise (h : illegalWord w = true) : deliver w s = err := by
    rw [deliver_of_illegalWord h, afterError_illegal]
  refine ⟨fun hop => ?_, fun hop hzero => ?_, fun hop hzero => ?_, fun hop => ?_, ?_⟩
  · exact hraise (illegalWord_eq_true_iff.mpr (.inl hop))
  · exact hraise (illegalWord_eq_true_iff.mpr (.inr (.inl ⟨hop, hzero⟩)))
  · exact hraise (illegalWord_eq_true_iff.mpr (.inr (.inr ⟨hop, hzero⟩)))
  · rw [exists_decode_ok_iff]
    obtain hop | hop : opField w = 6 ∨ opField w = 7 := by simpa using hop
    all_goals simp [illegalWord, hop]
  · rw [decode_eq_ok_iff_encode]
    exact ⟨fun ⟨_, henc⟩ => henc.symm, fun hw => ⟨rfl, hw.symm⟩⟩

end Sys2Proof.Machine
end

section
/-! PROOFS. The response word (30_encoding.md R98 to R100). -/

namespace Sys2Proof.Machine

theorem kind_code_lt (k : Kind) : k.code < 2 ^ 4 := by
  cases k <;> decide

theorem responseWord_toNat {errc : Nat} (h : errc < 2 ^ 4) (k : Kind) (val : BitVec 24) :
    (responseWord errc k val).toNat = errc * 2 ^ 28 + k.code * 2 ^ 24 + val.toNat := by
  rw [responseWord, BitVec.toNat_append, ← Nat.shiftLeft_add_eq_or_of_lt val.isLt, BitVec.toNat_append,
    ← Nat.shiftLeft_add_eq_or_of_lt (BitVec.isLt _), BitVec.toNat_ofNat, BitVec.toNat_ofNat, Nat.mod_eq_of_lt h,
    Nat.mod_eq_of_lt (kind_code_lt k), Nat.shiftLeft_eq, Nat.shiftLeft_eq]
  omega

theorem errorWord_toNat (e : Err) : (errorWord e).toNat = e.code <<< 28 := by
  have hcode : e.code < 2 ^ 4 := by cases e <;> decide
  simp [errorWord, responseWord_toNat hcode, Nat.shiftLeft_eq, Kind.code]

/-- Settles O7: the layout of the word, that of a failing command, then the codes as they are listed. -/
theorem responseWordLayout : Obligations.ResponseWordLayout :=
  ⟨fun _ k v he => responseWord_toNat he k v, errorWord_toNat, rfl, rfl, rfl, rfl, rfl, rfl, rfl, rfl, rfl⟩

end Sys2Proof.Machine
end

section
/-! PROOFS. The BitField Accessor (40_bitfield_accessor.md R120 to R127): where it answers and with what, once as an
equivalence; then that value as a bit string (R121), the laws (R124), the bytes that are read (R123), and the two
commands over it (R126, R127). -/

namespace Sys2Proof.Machine

variable {s t : State} {sp : Space}

/-! ### Digits of a bit string -/

/-- Shifting the last `m` bits out of a string leaves the bits before them. -/
theorem bitNumber_shiftRight {f : Nat → Nat} {off n m : Nat} (h : ∀ i, f i ≤ 1) :
    bitNumber f off (n + m) >>> m = bitNumber f off n := by
  rw [bitNumber_add, Nat.shiftRight_eq_div_pow, Nat.mul_comm, Nat.mul_add_div (Nat.two_pow_pos m),
    Nat.div_eq_of_lt (bitNumber_lt fun _ _ => h _), Nat.add_zero]

/-- The digit at place `m - 1 - i` of the number is the string's bit `i`. -/
theorem bitNumber_digit {f : Nat → Nat} {off m i : Nat} (h : ∀ i, f i ≤ 1) (hi : i < m) :
    bitNumber f off m >>> (m - 1 - i) % 2 = f (off + i) := by
  have hbit := h (off + i)
  have hshift := bitNumber_shiftRight (off := off) (n := i + 1) (m := m - 1 - i) h
  rw [show i + 1 + (m - 1 - i) = m by omega] at hshift
  rw [hshift, bitNumber_succ]
  omega

/-! ### Where the accessor answers -/

/-- The accessor answers exactly inside its preconditions (R120) and where the bytes it reads exist (R123), with the
number of the bits it is asked for (R121). -/
theorem extract_eq_ok_iff {off c v : Nat} :
    extract s sp off c = .ok v ↔
      (1 ≤ c ∧ c ≤ 8 ∧ off + c ≤ s.spaceBits sp) ∧ off / 8 < s.spaceBytes sp ∧
        (8 < off % 8 + c → off / 8 + 1 < s.spaceBytes sp) ∧ bitNumber (s.bitAt sp) off c = v := by
  have hspan : (8 < off % 8 + c → off / 8 + 1 < s.spaceBytes sp) ↔
      off % 8 + c ≤ 8 ∨ off / 8 + 1 < s.spaceBytes sp := by omega
  rw [extract_eq, hspan]
  split_ifs <;> simp [*]

theorem extract_lt {off c v : Nat} (h : extract s sp off c = .ok v) : v < 2 ^ c := by
  rw [extract_eq_bitNumber h]
  exact bitNumber_lt fun _ _ => bitAt_le _ _ _

/-- Settles O8: `extract_answers` for the answer, and the digits of a bit string for its value. -/
theorem extractIsTheBitString : Obligations.ExtractIsTheBitString := by
  intro s sp off c hpos hmax hbits hlast
  obtain ⟨v, hv⟩ := extract_answers ⟨hpos, hmax, hbits⟩ hlast
  refine ⟨v, hv, ?_, extract_lt hv, fun i hi => ?_⟩
  · rw [extract_eq_bitNumber hv]
    simp only [bitNumber, Nat.shiftLeft_eq]
  · rw [extract_eq_bitNumber hv, bitNumber_digit (bitAt_le s sp) hi]

/-! ### The laws -/

/-- Eight aligned bits are a byte. -/
theorem extract_byte {q v : Nat} (h : extract s sp (8 * q) 8 = .ok v) : v = (s.byteAt sp q).toNat := by
  rw [extract_eq_bitNumber h, bitNumber_bitAt s sp _ _ (by omega), show 8 * q % 8 = 0 by omega,
    show 8 * q / 8 = q by omega, bitNumber_bitOf _ _ _ (by omega), Nat.sub_zero, Nat.sub_self, pow_zero, Nat.div_one,
    Nat.mod_eq_of_lt (s.byteAt sp q).isLt]

/-- Two neighbouring fields are one field: the bytes that it reads are read for one of its parts, and its bits are
theirs. -/
theorem extract_append {off a b v u : Nat} (hmax : a + b ≤ 8) (hv : extract s sp off a = .ok v)
    (hu : extract s sp (off + a) b = .ok u) : extract s sp off (a + b) = .ok ((v <<< b) ||| u) := by
  have hlt := extract_lt hu
  obtain ⟨⟨ha, -, -⟩, hfirst, -, rfl⟩ := extract_eq_ok_iff.mp hv
  obtain ⟨⟨hb, -, hbits⟩, hsecond, hreach, rfl⟩ := extract_eq_ok_iff.mp hu
  refine extract_eq_ok_iff.mpr ⟨⟨by omega, hmax, by omega⟩, hfirst, fun hspan => ?_, ?_⟩
  · by_cases hnext : off % 8 + a < 8
    · rw [show (off + a) / 8 = off / 8 by omega, show (off + a) % 8 = off % 8 + a by omega] at hreach
      exact hreach (by omega)
    · omega
  · rw [bitNumber_add, ← Nat.shiftLeft_add_eq_or_of_lt hlt, Nat.shiftLeft_eq]

/-- Settles O9: one law each; the last because the value is a function of the bits alone. -/
theorem extractLaws : Obligations.ExtractLaws := by
  intro s sp
  refine ⟨fun _ _ _ => extract_lt, fun _ _ => extract_one, fun _ _ => extract_byte,
    fun _ _ _ _ _ _ _ hmax hv hu => extract_append hmax hv hu, fun t sp' o1 o2 c v u hv hu hbits => ?_⟩
  rw [extract_eq_bitNumber hv, extract_eq_bitNumber hu, bitNumber_congr hbits]

/-! ### The bytes that are read -/

/-- The bits of a field are those of byte `q` and, where it reaches into it, of byte `q + 1`. -/
theorem bitNumber_bitAt_congr {off c : Nat} (hmax : c ≤ 8) (hfirst : t.byteAt sp (off / 8) = s.byteAt sp (off / 8))
    (hsecond : 8 < off % 8 + c → t.byteAt sp (off / 8 + 1) = s.byteAt sp (off / 8 + 1)) :
    bitNumber (t.bitAt sp) off c = bitNumber (s.bitAt sp) off c := by
  refine bitNumber_congr fun i hi => ?_
  have hbyte : t.byteAt sp ((off + i) / 8) = s.byteAt sp ((off + i) / 8) := by
    by_cases hin : off % 8 + i < 8
    · rw [show (off + i) / 8 = off / 8 by omega, hfirst]
    · rw [show (off + i) / 8 = off / 8 + 1 by omega, hsecond (by omega)]
  rw [State.bitAt, State.bitAt, hbyte]

/-- Settles O10: the accessor's equation names the bytes that must exist, and its value is made of their bits. -/
theorem extractReadsOnlyItsBytes : Obligations.ExtractReadsOnlyItsBytes := by
  intro s sp off c hpos hmax hbits
  refine ⟨?_, fun t htbits htbytes hfirst hsecond => ?_⟩
  · simp only [extract_eq_ok_iff, exists_and_left, exists_eq', and_true]
    exact and_iff_right ⟨hpos, hmax, hbits⟩
  · rw [extract_eq, extract_eq, htbits, htbytes, bitNumber_bitAt_congr hmax hfirst hsecond]

/-! ### The commands -/

/-- What `EXTH` and `EXTP` have in common, over their own buffer: the range error, or the field's bits. The hypothesis
is that the buffer holds the fields that the range check lets through. -/
theorem badField_raises_or_value {off cnt : Nat}
    (hanswers : 1 ≤ cnt ∧ cnt ≤ 8 ∧ off + cnt ≤ s.spaceBits sp → ∃ v, extract s sp off cnt = .ok v) :
    (if badField off cnt (s.spaceBits sp) then raise .range s
      else andThen (extract s sp off cnt) fun v => respond .value (BitVec.ofNat 24 v) s) =
    if cnt < 1 ∨ 8 < cnt ∨ s.spaceBits sp < off + cnt then .next (afterError .range s)
      else .next { s with
        rsp := some (responseWord 0 .value (BitVec.ofNat 24 (bitNumber (s.bitAt sp) off cnt))) } := by
  refine ite_congr (by simp only [badField, decide_eq_true_eq]) (fun _ => rfl) fun hfield => ?_
  obtain ⟨v, hv⟩ := hanswers (by omega)
  rw [hv, ← extract_eq_bitNumber hv]
  rfl

/-- Settles O11: every field inside the haystack's length is answered. -/
theorem exthReturnsTheBits : Obligations.ExthReturnsTheBits := fun _ _ _ =>
  badField_raises_or_value (sp := .haystack) extract_haystack_answers

/-- Settles O12: the state check, then every field inside the pattern is answered, for the pattern fits its memory. -/
theorem extpReturnsTheBits : Obligations.ExtpReturnsTheBits := fun _ _ _ hcap =>
  ite_congr rfl (fun _ => rfl) fun _ =>
    badField_raises_or_value (sp := .pattern) (extract_pattern_answers hcap)

end Sys2Proof.Machine
end

section
/-! PROOFS. The arithmetic of the pattern compiler: a chunk folded extends the hash (41_pattern_compiler.md R141), and
`rnum` over the chunks of a pattern is a power of two modulo 167 (R142), never 0, with period 83 (R147). -/

namespace Sys2Proof.Machine

/-! ### The hash -/

theorem bitNumber_one (f : Nat → Nat) (off : Nat) : bitNumber f off 1 = f off := by
  rw [bitNumber_succ, bitNumber_zero, Nat.mul_zero, Nat.zero_add, Nat.add_zero]

/-- Settles O13: one bit is a chunk of width 1. -/
theorem foldOfAChunkIsTheHash : Obligations.FoldOfAChunkIsTheHash := by
  intro f off m w
  have hbit := fold_bitHash f off m 1
  rw [bitNumber_one] at hbit
  exact ⟨bitHash_zero f off, hbit, fold_bitHash f off m w⟩

/-! ### The power of two -/

/-- Chunks one after another shift by the sum of their widths. -/
theorem foldl_rnumStep (ws : List Nat) (r : Nat) : ws.foldl rnumStep (r % 167) = r * 2 ^ ws.sum % 167 := by
  induction ws generalizing r with
  | nil => simp
  | cons w ws ih =>
    rw [List.foldl_cons, rnumStep_eq, Nat.mod_mul_mod, ih, List.sum_cons, pow_add, Nat.mul_assoc]

/-- `INV2 = 84` is the inverse of 2 modulo 167. -/
theorem inv2_mul_two_pow {m : Nat} (hm : 1 ≤ m) : 84 * 2 ^ m % 167 = 2 ^ (m - 1) % 167 := by
  obtain ⟨k, rfl⟩ := Nat.exists_eq_add_of_le' hm
  rw [Nat.add_sub_cancel, pow_succ]
  omega

/-- Settles O14: the shifts add up, and 84 halves the power. -/
theorem rnumOverChunks : Obligations.RnumOverChunks := by
  refine ⟨rnumStep_eq, fun ws => ?_⟩
  have htotal := foldl_rnumStep ws 84
  exact ⟨htotal, fun hpos => htotal.trans (inv2_mul_two_pow hpos)⟩

/-- `rnum` is never 0, for 84 and 2 are coprime to 167 (10_state.md R42 I1). -/
theorem inv2_mul_two_pow_pos (m : Nat) : 1 ≤ 84 * 2 ^ m % 167 := by
  have hcoprime : Nat.Coprime 167 (84 * 2 ^ m) :=
    Nat.Coprime.mul_right (by decide) (Nat.Coprime.pow_right m (by decide))
  refine Nat.pos_of_ne_zero fun hzero => ?_
  have hone := hcoprime.eq_one_of_dvd (Nat.dvd_of_mod_eq_zero hzero)
  omega

/-- The powers of two modulo 167 repeat after 83. -/
theorem two_pow_mod_period (m : Nat) : 2 ^ m % 167 = 2 ^ (m % 83) % 167 := by
  have hperiod : (2 ^ 83) ^ (m / 83) ≡ 1 ^ (m / 83) [MOD 167] := Nat.ModEq.pow _ (by decide)
  calc 2 ^ m % 167 = (2 ^ 83) ^ (m / 83) * 2 ^ (m % 83) % 167 := by rw [← pow_mul, ← pow_add, Nat.div_add_mod]
    _ = 1 ^ (m / 83) * 2 ^ (m % 83) % 167 := hperiod.mul_right _
    _ = 2 ^ (m % 83) % 167 := by rw [one_pow, Nat.one_mul]

theorem inv2_mul_two_pow_congr {m n : Nat} (h : m % 83 = n % 83) : 84 * 2 ^ m % 167 = 84 * 2 ^ n % 167 := by
  rw [Nat.mul_mod, two_pow_mod_period, h, ← two_pow_mod_period, ← Nat.mul_mod]

end Sys2Proof.Machine
end

section
/-! PROOFS. The two commands of the pattern compiler, as equations: `PATBEGIN` (41_pattern_compiler.md R143) and
`PATNIB` (R144 to R146). -/

namespace Sys2Proof.Machine

variable {s : State} {v : Nat}

/-! ### PATBEGIN -/

/-- An accepted `PATBEGIN` (R143). -/
theorem exec_patbegin {n : Nat} (hcap : ceil8 n ≤ s.patCap) :
    exec (.patbegin n) s = .next (offer 0x00000000#32 (openCompile n s)) :=
  if_neg (not_lt.mpr hcap)

/-- Settles O15: the statement writes out the two branches of the command. -/
theorem patbeginOpensACompile : Obligations.PatbeginOpensACompile := fun _ _ =>
  ite_congr rfl (fun _ => rfl) fun _ => rfl

/-! ### PATNIB -/

theorem exec_patnib_not_loading (h : s.pstate ≠ .loading) : exec (.patnib v) s = .next (afterError .state s) :=
  if_pos h

/-- A value of 16 or more discards the pattern (R146, 60_exceptions.md R224). -/
theorem exec_patnib_malformed (hstate : s.pstate = .loading) (hv : 16 ≤ v) :
    exec (.patnib v) s = .next (afterError .malformed { s with pstate := .none }) :=
  (if_neg (not_not.mpr hstate)).trans (if_pos hv)

/-- `consumed` is what a nibble leaves, wherever a bit is wanted and its byte exists. -/
theorem consumeNibble_eq (v : Nat) (hfill : s.pfill.toNat < s.pbits.toNat) (hbyte : s.pfill.toNat / 8 < s.patCap) :
    consumeNibble v s = .ok (consumed v s) := by
  simp only [consumeNibble, if_pos hfill, packNibble, writePattern_ok.mpr ⟨hbyte, rfl⟩]
  rfl

/-- An accepted `PATNIB` (R144). -/
theorem exec_patnib (hstate : s.pstate = .loading) (hv : v < 16) (hfill : s.pfill.toNat < s.pbits.toNat)
    (hbyte : s.pfill.toNat / 8 < s.patCap) :
    exec (.patnib v) s = .next (offer 0x00000000#32 (consumed v s)) := by
  change execPatnib v s = _
  rw [execPatnib, if_neg (not_not.mpr hstate), if_neg (not_le.mpr hv), consumeNibble_eq v hfill hbyte]
  rfl

/-- The cancel term of the last chunk is exact in 8 bits, for every `rnum` (R147, R149). -/
theorem consumed_pcan_toNat (v : Nat) (hlast : s.pfill.toNat + chunkWidth s = s.pbits.toNat) :
    (consumed v s).pcan.toNat = 167 - (consumed v s).rnum.toNat := by
  have hcan : (consumed v s).pcan = BitVec.ofNat 8 (cancelTerm (rnumStep s.rnum.toNat (chunkWidth s))) :=
    if_pos hlast
  rw [hcan, consumed_rnum_toNat, BitVec.toNat_ofNat, cancelTerm]
  exact Nat.mod_eq_of_lt ((Nat.sub_le 167 _).trans_lt (by decide))

/-- The last chunk makes the pattern ready with its cancel term; before it the compile stays as it is (R144). -/
theorem consumed_completes_or_stays (v : Nat) (s : State) :
    if s.pfill.toNat + chunkWidth s = s.pbits.toNat then
      (consumed v s).pcan.toNat = 167 - (consumed v s).rnum.toNat ∧ (consumed v s).pstate = .ready
    else (consumed v s).pcan = s.pcan ∧ (consumed v s).pstate = s.pstate := by
  split_ifs with hlast
  · exact ⟨consumed_pcan_toNat v hlast, if_pos hlast⟩
  · exact ⟨if_neg hlast, if_neg hlast⟩

/-- The byte that takes the chunk. -/
theorem consumed_byteAt_fill (v : Nat) (s : State) : (consumed v s).byteAt .pattern (s.pfill.toNat / 8) =
    packedByte (paddedChunk v (chunkWidth s)) s.pfill.toNat (s.byteAt .pattern (s.pfill.toNat / 8)) := by
  rw [consumed, advanceCompile_byteAt, packed_byteAt, if_pos rfl]

/-- The packed byte as R145 writes it. -/
theorem packedByte_eq (nib fill : Nat) (old : Byte) : packedByte nib fill old =
    if fill % 8 = 0 then BitVec.ofNat 8 (nib * 16) else (old &&& 0xF0#8) ||| BitVec.ofNat 8 nib := by
  refine ite_congr rfl (fun _ => by rw [Nat.shiftLeft_eq]) fun _ => ?_
  rw [BitVec.ofNat_or]
  congr 1
  exact BitVec.eq_of_toNat_eq (by simp)

/-- Settles O16: the three equations of `PATNIB`, and for the accepted nibble the registers of `consumed`. -/
theorem patnibConsumesANibble : Obligations.PatnibConsumesANibble := by
  refine fun v s => ⟨exec_patnib_not_loading, exec_patnib_malformed, fun hstate hv hfill hbyte => ?_⟩
  have hvalue : chunkValue v (chunkWidth s) = v / 2 ^ (4 - chunkWidth s) := Nat.shiftRight_eq_div_pow _ _
  refine ⟨_, exec_patnib hstate hv hfill hbyte, ?hash, ?rnum, consumed_pfill_toNat v hfill, ?last, ?byte,
    fun _ => consumed_byteAt_of_ne v, rfl⟩
  case hash => exact (consumed_phash_toNat v s).trans (by rw [fold_eq, hvalue]; rfl)
  case rnum => exact (consumed_rnum_toNat v s).trans (rnumStep_eq _ _)
  case last => exact hstate ▸ consumed_completes_or_stays v s
  case byte =>
    refine (consumed_byteAt_fill v s).trans ?_
    rw [packedByte_eq, paddedChunk_eq, hvalue]
    rfl

end Sys2Proof.Machine
end

section
/-! PROOFS. A whole compile (41_pattern_compiler.md R147, R148): what holds after `PATBEGIN` and any number of nibbles
is one predicate; every nibble that is still wanted keeps it for one digit more. -/

namespace Sys2Proof.Machine

variable {s t : State} {n d : Nat} {ds : List Nat}

/-! ### The bits of a digit string -/

/-- More digits leave the bits of the ones before. -/
theorem nibbleBit_append_of_lt (es : List Nat) {k : Nat} (hk : k < 4 * ds.length) :
    nibbleBit (ds ++ es) k = nibbleBit ds k := by
  rw [nibbleBit, nibbleBit, List.getD_append _ _ _ _ (by omega)]

/-- The bits of the last digit, the most significant first. -/
theorem nibbleBit_concat {i : Nat} (hi : i < 4) :
    nibbleBit (ds ++ [d]) (4 * ds.length + i) = d / 2 ^ (3 - i) % 2 := by
  rw [nibbleBit, show (4 * ds.length + i) / 4 = ds.length by omega, show (4 * ds.length + i) % 4 = i by omega,
    List.getD_append_right _ _ _ _ le_rfl, Nat.sub_self, List.getD_cons_zero]

/-- A chunk is packed as the nibble's top bits. -/
theorem packed_bitAt_chunk {v w i : Nat} (hv : v < 16) (hw : w ≤ 4) (hfill : s.pfill.toNat % 4 = 0) (hi : i < w) :
    (packed (paddedChunk v w) s.pfill.toNat s).bitAt .pattern (s.pfill.toNat + i) = v / 2 ^ (3 - i) % 2 := by
  rw [← bitNumber_digit (bitAt_le _ _) hi, packed_bitNumber hv hw hfill, chunkValue, ← Nat.shiftRight_add,
    show 4 - w + (w - 1 - i) = 3 - i by omega, Nat.shiftRight_eq_div_pow]

/-! ### An open compile -/

/-- `t` is `s` after `PATBEGIN n` and the nibbles `ds`. -/
structure Compiled (s : State) (n : Nat) (ds : List Nat) (t : State) : Prop where
  pbits : t.pbits.toNat = n
  pfill : t.pfill.toNat = min n (4 * ds.length)
  patCap : t.patCap = s.patCap
  bits : ∀ k < t.pfill.toNat, t.bitAt .pattern k = nibbleBit ds k
  above : ∀ a, ceil8 n ≤ a → t.byteAt .pattern a = s.byteAt .pattern a
  phash : t.phash.toNat = bitHash (t.bitAt .pattern) 0 t.pfill.toNat
  rnum : t.rnum.toNat = 84 * 2 ^ t.pfill.toNat % 167
  loading : t.pfill.toNat < n → t.pstate = .loading ∧ t.pcan = 0
  ready : t.pfill.toNat = n → t.pstate = .ready ∧ t.pcan.toNat = 167 - t.rnum.toNat ∧
    ∀ k, n ≤ k → k < 8 * ceil8 n → t.bitAt .pattern k = 0

namespace Compiled

theorem offer (h : Compiled s n ds t) (w : Word) : Compiled s n ds (offer w t) := { h with }

/-- `PATBEGIN n` (R143), from any state; the empty pattern is complete at once. -/
theorem openCompile (s : State) (hn : n < 2 ^ 24) : Compiled s n [] (openCompile n s) where
  pbits := (BitVec.toNat_ofNat n 24).trans (Nat.mod_eq_of_lt hn)
  pfill := (Nat.min_zero n).symm
  patCap := rfl
  bits k hk := absurd hk (Nat.not_lt_zero k)
  above _ _ := rfl
  phash := (bitHash_zero _ _).symm
  rnum := rfl
  loading hpos := ⟨if_neg (Nat.ne_of_gt hpos), if_neg (Nat.ne_of_gt hpos)⟩
  ready hzero := by
    obtain rfl : 0 = n := hzero
    exact ⟨rfl, rfl, fun k _ hk => absurd hk (Nat.not_lt_zero k)⟩

/-- While a nibble is wanted, those before it were used whole, and a bit is still missing. -/
theorem pfill_of_wanted (h : Compiled s n ds t) (hmore : 4 * ds.length < n) :
    t.pfill.toNat = 4 * ds.length ∧ t.pfill.toNat < t.pbits.toNat := by
  rw [h.pfill, h.pbits]
  omega

/-- A nibble that is still wanted (R144, R145): its bits come after those packed before. -/
theorem consumed (h : Compiled s n ds t) (hd : d < 16) (hmore : 4 * ds.length < n) :
    Compiled s n (ds ++ [d]) (consumed d t) := by
  obtain ⟨hstart, hfill⟩ := h.pfill_of_wanted hmore
  have haligned : t.pfill.toNat % 4 = 0 := by omega
  obtain ⟨hwpos, hw, hle, hfour⟩ := chunkWidth_bounds hfill
  have hpfill := consumed_pfill_toNat d hfill
  have hrnum := consumed_rnum_toNat d t
  have hends := consumed_completes_or_stays d t
  rw [h.pbits] at hle hfour hends
  obtain ⟨hloading, hpcan⟩ := h.loading (by omega)
  exact
    { pbits := h.pbits
      pfill := by rw [hpfill, List.length_append, List.length_singleton]; omega
      patCap := h.patCap
      bits := fun k hk => by
        rw [hpfill] at hk
        by_cases hold : k < t.pfill.toNat
        · rw [nibbleBit_append_of_lt _ (hstart ▸ hold), ← h.bits k hold]
          exact packed_bitAt_of_lt hd hw haligned hold
        · obtain ⟨i, rfl⟩ := Nat.exists_eq_add_of_le (not_lt.mp hold)
          have hnew := packed_bitAt_chunk hd hw haligned (show i < chunkWidth t by omega)
          rw [← nibbleBit_concat (ds := ds) (by omega), ← hstart] at hnew
          exact hnew
      above := fun a ha => by
        have hne : a ≠ t.pfill.toNat / 8 := by
          unfold ceil8 at ha
          omega
        rw [consumed_byteAt_of_ne d hne, h.above a ha]
      phash := by
        rw [consumed_phash_toNat, hpfill]
        exact fold_packed hd hw haligned h.phash
      rnum := by rw [hrnum, hpfill, rnumStep_eq, h.rnum, pow_add, ← Nat.mul_assoc, Nat.mod_mul_mod]
      loading := fun hopen => by
        rw [hpfill] at hopen
        rw [if_neg hopen.ne] at hends
        exact ⟨hends.2.trans hloading, hends.1.trans hpcan⟩
      ready := fun hlast => by
        rw [hpfill] at hlast
        rw [if_pos hlast] at hends
        refine ⟨hends.2, hends.1, fun k hk hbyte => ?_⟩
        unfold ceil8 at hbyte
        exact packed_bitAt_pad hd hw haligned (by omega) (by omega) }

/-- Nibbles that are all wanted, one after another. -/
theorem patnibs {es : List Nat} (h : Compiled s n ds t) (hcap : ceil8 n ≤ s.patCap)
    (hlen : (ds ++ es).length ≤ (n + 3) / 4) (hes : ∀ e ∈ es, e < 16) :
    ∃ u, runCommands (es.map .patnib) t = .next u ∧ Compiled s n (ds ++ es) u := by
  induction es generalizing ds t with
  | nil => exact ⟨t, rfl, by rwa [List.append_nil]⟩
  | cons e es ih =>
    rw [List.append_cons] at hlen ⊢
    obtain ⟨he, hes⟩ := List.forall_mem_cons.mp hes
    have hmore : 4 * ds.length < n := by
      simp only [List.length_append, List.length_singleton] at hlen
      omega
    obtain ⟨hstart, hfill⟩ := h.pfill_of_wanted hmore
    have hbyte : t.pfill.toNat / 8 < t.patCap := by
      rw [h.patCap]
      exact (div_eight_lt_ceil8 (hstart ▸ hmore)).trans_le hcap
    obtain ⟨hloading, -⟩ := h.loading (hstart ▸ hmore)
    obtain ⟨u, hrun, hu⟩ := ih ((h.consumed he hmore).offer 0x00000000#32) hlen hes
    refine ⟨u, ?_, hu⟩
    rw [List.map_cons, runCommands, exec_patnib hloading he hfill hbyte]
    exact hrun

/-- The hash of the bits stored is the hash of the nibbles' bits. -/
theorem phash_eq (h : Compiled s n ds t) : t.phash.toNat = bitHash (nibbleBit ds) 0 t.pfill.toNat :=
  h.phash.trans (bitHash_congr fun k hk => h.bits (0 + k) (by rwa [Nat.zero_add]))

end Compiled

/-! ### The run of a compile -/

/-- `PATBEGIN n` and no more nibbles than it wants, from any state with room (R147, R148). -/
theorem runCommands_compile (s : State) (hn : n < 2 ^ 24) (hcap : ceil8 n ≤ s.patCap)
    (hlen : ds.length ≤ (n + 3) / 4) (hds : ∀ d ∈ ds, d < 16) :
    ∃ t, runCommands (.patbegin n :: ds.map .patnib) s = .next t ∧ Compiled s n ds t := by
  obtain ⟨t, hrun, ht⟩ := ((Compiled.openCompile s hn).offer 0x00000000#32).patnibs hcap hlen hds
  refine ⟨t, ?_, ht⟩
  rw [runCommands, exec_patbegin hcap]
  exact hrun

/-- Settles O17: as many nibbles as are wanted complete the compile; its `rnum` and cancel term are powers of two. -/
theorem patloadCompilesThePattern : Obligations.PatloadCompilesThePattern := by
  intro s n ds hn hcap hlen hds
  obtain ⟨t, hrun, ht⟩ := runCommands_compile s hn hcap hlen.le hds
  have hfill : t.pfill.toNat = n := ht.pfill.trans (by omega)
  obtain ⟨hready, hcan, hpad⟩ := ht.ready hfill
  have hbits := ht.bits
  have hhash := ht.phash_eq
  have hrnum := ht.rnum
  rw [hfill] at hbits hhash hrnum
  have hrpos := inv2_mul_two_pow_pos n
  refine ⟨t, hrun, hready, ht.pbits, hfill, hbits, hpad, ht.above, hhash,
    fun hpos => hrnum.trans (inv2_mul_two_pow hpos), ?_, fun m hm _ hmod => ?_, hcan, by omega, by omega, by omega⟩
  · rintro rfl
    exact hrnum
  · rw [hcan, hrnum, ← inv2_mul_two_pow hm, inv2_mul_two_pow_congr hmod]

/-- Settles O18: with a nibble missing the compile is still open. -/
theorem shortCompileStaysLoading : Obligations.ShortCompileStaysLoading := by
  intro s n ds hn hcap hlen hds
  obtain ⟨t, hrun, ht⟩ := runCommands_compile s hn hcap hlen.le hds
  have hfill : t.pfill.toNat = 4 * ds.length := ht.pfill.trans (by omega)
  obtain ⟨hloading, hcan⟩ := ht.loading (by omega)
  exact ⟨t, hrun, hloading, hfill, hcan, hfill ▸ ht.phash_eq⟩

end Sys2Proof.Machine
end

section
/-! PROOFS. What the reads of the scanner answer, as equations: the matcher tells whether the pattern occurs
(43_exact_matcher.md R190), the check of a window and the shift follow (42_rolling_hash_scanner.md R162, R164, R166). -/

namespace Sys2Proof.Machine

variable {s : State}

/-! ### The matcher -/

/-- Two bit strings of one length have the same number exactly when they have the same bits. -/
theorem bitNumber_eq_iff {f g : Nat → Nat} {o1 o2 m : Nat} (hf : ∀ i, f i ≤ 1) (hg : ∀ i, g i ≤ 1) :
    bitNumber f o1 m = bitNumber g o2 m ↔ ∀ i < m, f (o1 + i) = g (o2 + i) := by
  refine ⟨fun h i hi => ?_, bitNumber_congr⟩
  rw [← bitNumber_digit hf hi, h, bitNumber_digit hg hi]

/-- From pattern offset `j` the loop tells whether the bits from `j` on agree: chunk by chunk, the first chunk that
differs ends it. -/
theorem matchChunks_ok {start n fuel j : Nat} {m : Bool} (hfuel : n ≤ j + 8 * fuel)
    (h : matchChunks s start n fuel j = .ok m) :
    m = true ↔ ∀ i, j ≤ i → i < n → s.bitAt .haystack (start + i) = s.bitAt .pattern i := by
  induction fuel generalizing j with
  | zero =>
    obtain rfl := Except.ok.inj h
    exact iff_of_true rfl fun i _ _ => by omega
  | succ fuel ih =>
    unfold matchChunks at h
    split at h
    case isFalse =>
      obtain rfl := Except.ok.inj h
      exact iff_of_true rfl fun i _ _ => by omega
    case isTrue hj =>
      rcases hv : extract s .haystack (start + j) (min 8 (n - j)) with f | v
      · simp [hv] at h
      rcases hp : extract s .pattern j (min 8 (n - j)) with f | p
      · simp [hv, hp] at h
      have hchunk : v = p ↔
          ∀ i < min 8 (n - j), s.bitAt .haystack (start + j + i) = s.bitAt .pattern (j + i) := by
        rw [extract_eq_bitNumber hv, extract_eq_bitNumber hp, bitNumber_eq_iff (bitAt_le _ _) (bitAt_le _ _)]
      simp only [hv, hp] at h
      split at h
      case isTrue heq =>
        rw [ih (by omega) h]
        refine ⟨fun hrest i hji hi => ?_, fun hall i hji => hall i (by omega)⟩
        by_cases hin : i < j + min 8 (n - j)
        · obtain ⟨i, rfl⟩ := Nat.exists_eq_add_of_le hji
          rw [← Nat.add_assoc]
          exact hchunk.mp heq i (by omega)
        · exact hrest i (by omega) hi
      case isFalse hne =>
        obtain rfl := Except.ok.inj h
        refine iff_of_false Bool.false_ne_true fun hall => hne (hchunk.mpr fun i hi => ?_)
        rw [Nat.add_assoc]
        exact hall (j + i) (by omega) (by omega)

theorem patternMatches_ok {start : Nat} {m : Bool} (h : patternMatches s start = .ok m) :
    m = decide (s.occursAt start) := by
  have hbits := matchChunks_ok (by unfold ceil8; omega) h
  rw [Bool.eq_iff_iff, hbits, decide_eq_true_iff]
  exact ⟨fun hall i => hall i (Nat.zero_le i), fun hocc i _ => hocc i⟩

/-- The matcher decides where the pattern occurs, wherever its reads answer (R190). -/
theorem patternMatches_eq {start : Nat} (hcap : ceil8 s.pbits.toNat ≤ s.patCap)
    (hstart : start + s.pbits.toNat ≤ s.hayBits) : patternMatches s start = .ok (decide (s.occursAt start)) := by
  obtain ⟨m, hm⟩ := patternMatches_answers hcap hstart
  rw [hm, patternMatches_ok hm]

/-! ### The window -/

/-- The initial hash is that of the first window (R162). -/
theorem hashInit_eq (hlen : s.pbits.toNat ≤ s.hayBits) :
    hashInit s = .ok (bitHash (s.bitAt .haystack) 0 s.pbits.toNat) := by
  obtain ⟨h, hinit⟩ := hashInit_answers hlen
  rw [hinit, hashInit_eq_bitHash hinit]

/-- The check of a window inside the haystack: the hashes are compared, and on a hit the bits (R164). -/
theorem checkWindow_eq (hw : WindowInside s) :
    checkWindow s = .ok
      (if s.lhash = s.phash then (true, decide (s.occursAt (s.wend.toNat - s.pbits.toNat))) else (false, false)) := by
  obtain ⟨hstart, hstop, hcap⟩ := hw
  simp only [checkWindow, windowStart_ok.mpr ⟨hstart, rfl⟩,
    patternMatches_eq (start := s.wend.toNat - s.pbits.toNat) hcap (by omega)]
  split_ifs <;> rfl

/-- A bit of the haystack, as the accessor gives it. -/
theorem extract_haystack_bit {k : Nat} (hk : k < s.hayBits) :
    extract s .haystack k 1 = .ok (s.bitAt .haystack k) := by
  obtain ⟨v, hv⟩ := extract_haystack_answers (s := s) (off := k) (c := 1) (by omega)
  rw [hv, extract_one hv]

/-- A shift that has haystack left: the leaving bit is the window's first, the entering one the first after it
(R166). -/
theorem shiftWindow_eq (hstart : s.pbits.toNat ≤ s.wend.toNat) (hlt : s.wend.toNat < s.hayBits) :
    shiftWindow s = .ok (moveWindow (shiftedHash s.lhash.toNat s.pcan.toNat
      (s.bitAt .haystack (s.wend.toNat - s.pbits.toNat)) (s.bitAt .haystack s.wend.toNat)) s) := by
  simp only [shiftWindow, windowStart_ok.mpr ⟨hstart, rfl⟩, extract_haystack_bit hlt,
    extract_haystack_bit (show s.wend.toNat - s.pbits.toNat < s.hayBits by omega)]

end Sys2Proof.Machine
end

section
/-! PROOFS. `HAYLEN`, `WINIT`, `WCHECK` and `WSHIFT` as equations (42_rolling_hash_scanner.md R160, R163, R165,
R167). -/

namespace Sys2Proof.Machine

variable {s : State}

/-- Settles O19: the statement writes out the two branches of the command. -/
theorem haylenDeclaresTheLength : Obligations.HaylenDeclaresTheLength := fun _ _ =>
  ite_congr rfl (fun _ => rfl) fun _ => rfl

/-- `LHASH` is reported with zeros above it, and holds every hash exactly (41_pattern_compiler.md R149). -/
theorem setWidth_ofNat_8 {h : Nat} (hh : h < 167) : (BitVec.ofNat 8 h).setWidth 24 = BitVec.ofNat 24 h :=
  BitVec.eq_of_toNat_eq (by rw [BitVec.toNat_setWidth, toNat_ofNat_8 hh, BitVec.toNat_ofNat])

/-! ### WINIT -/

/-- An accepted `WINIT` (R163). -/
theorem exec_winit (hstate : s.pstate = .ready) (hlen : s.pbits.toNat ≤ s.hayBits) :
    exec .winit s = respond .value (BitVec.ofNat 24 (bitHash (s.bitAt .haystack) 0 s.pbits.toNat))
      (openWindow (bitHash (s.bitAt .haystack) 0 s.pbits.toNat) s) := by
  change execWinit s = _
  rw [execWinit, if_neg (not_not.mpr hstate), if_neg (not_lt.mpr hlen), hashInit_eq hlen,
    ← setWidth_ofNat_8 (bitHash_lt _ _ _)]
  rfl

/-- Settles O20: the two errors, then `exec_winit`. -/
theorem winitHashesTheFirstWindow : Obligations.WinitHashesTheFirstWindow := by
  intro s
  split_ifs with hstate hlen
  · exact if_pos hstate
  · exact (if_neg hstate).trans (if_pos hlen)
  · exact exec_winit (not_not.mp hstate) (not_lt.mp hlen)

/-! ### WCHECK -/

theorem exec_wcheck_noWindow (h : s.pstate ≠ .ready ∨ s.wvalid = false) :
    exec .wcheck s = .next (afterError .state s) :=
  if_pos (noWindow_eq_true.mpr h)

/-- Settles O21: the two bits of the answer are the hash hit and the match of `checkWindow_eq`. -/
theorem wcheckReportsHitAndMatch : Obligations.WcheckReportsHitAndMatch := by
  refine fun s => ⟨exec_wcheck_noWindow, fun hstate hvalid hstart hstop hcap => ?_⟩
  change execWcheck s = _
  rw [execWcheck, noWindow_eq_false.mpr ⟨hstate, hvalid⟩, checkWindow_eq ⟨hstart, hstop, hcap⟩]
  by_cases hhit : s.lhash = s.phash
  · by_cases hocc : s.occursAt (s.wend.toNat - s.pbits.toNat)
    · simp only [if_pos hhit, if_pos hocc, decide_eq_true hocc]
      rfl
    · simp only [if_pos hhit, if_neg hocc, decide_eq_false hocc]
      rfl
  · simp only [if_neg hhit]
    rfl

/-! ### WSHIFT -/

theorem exec_wshift_noWindow (h : s.pstate ≠ .ready ∨ s.wvalid = false) :
    exec .wshift s = .next (afterError .state s) :=
  if_pos (noWindow_eq_true.mpr h)

/-- A `WSHIFT` of a valid window is an error at the last position, else the shift (R167). -/
theorem exec_wshift (hstate : s.pstate = .ready) (hvalid : s.wvalid = true) :
    exec .wshift s =
      if s.hayBits ≤ s.wend.toNat then .next (afterError .range s)
      else andThen (shiftWindow s) fun t => respond .value (t.lhash.setWidth 24) t := by
  change execWshift s = _
  rw [execWshift, noWindow_eq_false.mpr ⟨hstate, hvalid⟩]
  rfl

theorem shiftedHash_eq_mod (h can out inc : Nat) :
    shiftedHash h can out inc = (2 * (if out = 1 then (h + can) % 167 else h) + inc) % 167 := by
  rw [shiftedHash, fold_eq, pow_one, Nat.mul_comm]

/-- Settles O22: the error at the last position, else the equation of the shift. -/
theorem wshiftCancelsThenFolds : Obligations.WshiftCancelsThenFolds := by
  refine fun s => ⟨exec_wshift_noWindow, fun hstate hvalid hstart => ?_⟩
  rw [exec_wshift hstate hvalid]
  refine ite_congr rfl (fun _ => rfl) fun hlast => ?_
  have hwend : BitVec.ofNat 24 (s.wend.toNat + 1) = s.wend + 1#24 := by
    rw [BitVec.ofNat_add, BitVec.ofNat_toNat, BitVec.setWidth_eq]
  rw [shiftWindow_eq hstart (not_le.mp hlast), andThen, moveWindow_lhash, setWidth_ofNat_8 (shiftedHash_lt _ _ _ _),
    moveWindow, hwend, shiftedHash_eq_mod]
  rfl

end Sys2Proof.Machine
end

section
/-! PROOFS. The window walked over the haystack (42_rolling_hash_scanner.md R161, R166): every state that `WINIT`,
`WSHIFT` and the loop of `SCAN` pass through is a state `windowFrom o s`, the window at offset `o` with its hash. -/

namespace Sys2Proof.Machine

variable {s : State} {o : Nat}

/-- `s` with the window that starts at offset `o`, and its hash. -/
def windowFrom (o : Nat) (s : State) : State :=
  { s with
    lhash := BitVec.ofNat 8 (bitHash (s.bitAt .haystack) o s.pbits.toNat)
    wend := BitVec.ofNat 24 (o + s.pbits.toNat)
    wvalid := true }

@[simp] theorem windowFrom_pbits (o : Nat) (s : State) : (windowFrom o s).pbits = s.pbits := rfl
@[simp] theorem windowFrom_pcan (o : Nat) (s : State) : (windowFrom o s).pcan = s.pcan := rfl
@[simp] theorem windowFrom_hayBits (o : Nat) (s : State) : (windowFrom o s).hayBits = s.hayBits := rfl
@[simp] theorem windowFrom_bitAt (o : Nat) (s : State) (sp : Space) : (windowFrom o s).bitAt sp = s.bitAt sp := rfl

theorem windowFrom_lhash_toNat (o : Nat) (s : State) :
    (windowFrom o s).lhash.toNat = bitHash (s.bitAt .haystack) o s.pbits.toNat :=
  toNat_ofNat_8 (bitHash_lt _ _ _)

/-- A register of 24 bits holds a position of the haystack exactly. -/
theorem toNat_ofNat_24 {n : Nat} (h : n ≤ s.hayBits) : (BitVec.ofNat 24 n).toNat = n :=
  (BitVec.toNat_ofNat n 24).trans (Nat.mod_eq_of_lt (h.trans_lt (hayBits_lt s)))

theorem windowFrom_wend_toNat (hin : o + s.pbits.toNat ≤ s.hayBits) :
    (windowFrom o s).wend.toNat = o + s.pbits.toNat :=
  toNat_ofNat_24 hin

theorem windowFrom_start (hin : o + s.pbits.toNat ≤ s.hayBits) :
    (windowFrom o s).wend.toNat - s.pbits.toNat = o := by
  rw [windowFrom_wend_toNat hin, Nat.add_sub_cancel]

theorem windowInside_windowFrom (hcap : ceil8 s.pbits.toNat ≤ s.patCap) (hin : o + s.pbits.toNat ≤ s.hayBits) :
    WindowInside (windowFrom o s) := by
  have hwend := windowFrom_wend_toNat hin
  exact ⟨hwend ▸ Nat.le_add_left _ _, hwend ▸ hin, hcap⟩

/-- The window that `WINIT` and `SCAN` open is the one at offset 0. -/
theorem openWindow_eq_windowFrom (s : State) :
    openWindow (bitHash (s.bitAt .haystack) 0 s.pbits.toNat) s = windowFrom 0 s := by
  rw [openWindow, windowFrom, Nat.zero_add, BitVec.ofNat_toNat, BitVec.setWidth_eq]

/-- A valid window with its hash is the window from its own start. -/
theorem windowFrom_of_windowFresh (hvalid : s.wvalid = true) (hfresh : s.windowFresh)
    (hstart : s.pbits.toNat ≤ s.wend.toNat) : windowFrom (s.wend.toNat - s.pbits.toNat) s = s := by
  rw [windowFrom, ← hfresh hvalid, Nat.sub_add_cancel hstart, BitVec.ofNat_toNat, BitVec.setWidth_eq,
    BitVec.ofNat_toNat, BitVec.setWidth_eq, ← hvalid]

/-- A shift of the window at `o` leaves the window at `o + 1` (R166, R175). -/
theorem shiftWindow_windowFrom (inv : Invariants s) (hstate : s.pstate = .ready)
    (hlt : o + s.pbits.toNat < s.hayBits) : shiftWindow (windowFrom o s) = .ok (windowFrom (o + 1) s) := by
  obtain ⟨hfill, hcan, -⟩ := inv.ready hstate
  have hwend := windowFrom_wend_toNat hlt.le
  have hnext := shiftedHash_bitHash (f := s.bitAt .haystack) (start := o) (bitAt_le s .haystack o)
    (hfill ▸ inv.rnum) hcan
  rw [shiftWindow_eq (windowInside_windowFrom inv.fill.2 hlt.le).start (hwend ▸ hlt), windowFrom_pbits,
    windowFrom_start hlt.le, windowFrom_pcan, windowFrom_bitAt, windowFrom_lhash_toNat, hwend, hnext, moveWindow, hwend,
    Nat.add_right_comm]
  rfl

/-! ### The walk by commands -/

theorem exec_wshift_windowFrom (inv : Invariants s) (hstate : s.pstate = .ready)
    (hlt : o + s.pbits.toNat < s.hayBits) :
    ∃ w, exec .wshift (windowFrom o s) = .next (offer w (windowFrom (o + 1) s)) := by
  rw [exec_wshift (s := windowFrom o s) hstate rfl, windowFrom_wend_toNat hlt.le, windowFrom_hayBits,
    if_neg (not_le.mpr hlt), shiftWindow_windowFrom inv hstate hlt]
  exact ⟨_, rfl⟩

/-- Settles O23: the window is the one from its own start, which a shift takes to the next. -/
theorem shiftKeepsTheWindowHash : Obligations.ShiftKeepsTheWindowHash := by
  intro s inv hvalid hfresh hlt
  obtain ⟨hstate, hstart, -⟩ := inv.window hvalid
  have hlast : s.wend.toNat - s.pbits.toNat + s.pbits.toNat = s.wend.toNat := Nat.sub_add_cancel hstart
  obtain ⟨w, hexec⟩ := exec_wshift_windowFrom inv hstate (hlast.symm ▸ hlt)
  rw [windowFrom_of_windowFresh hvalid hfresh hstart] at hexec
  refine ⟨_, hexec, ?_, windowFrom_lhash_toNat _ s⟩
  exact (windowFrom_wend_toNat (by omega)).trans (by omega)

/-- `k` shifts take the window at `o` to the window at `o + k`; beside it only the response changes. -/
theorem runCommands_wshift (k : Nat) (inv : Invariants s) (hstate : s.pstate = .ready)
    (hin : o + k + s.pbits.toNat ≤ s.hayBits) :
    ∃ r, runCommands (List.replicate k .wshift) (windowFrom o s) =
      .next (windowFrom (o + k) { s with rsp := r }) := by
  induction k generalizing o s with
  | zero => exact ⟨s.rsp, rfl⟩
  | succ k ih =>
    obtain ⟨w, hexec⟩ := exec_wshift_windowFrom (o := o) inv hstate (by omega)
    obtain ⟨r, hrest⟩ := ih (s := offer w s) (o := o + 1) (inv.offer w) hstate
      (by rwa [Nat.add_right_comm o 1 k])
    refine ⟨r, ?_⟩
    rw [List.replicate_succ, runCommands, hexec, ← Nat.add_assoc, Nat.add_right_comm]
    exact hrest

/-- Settles O24: `WINIT` opens the window at 0, then `runCommands_wshift`. -/
theorem windowWalk : Obligations.WindowWalk := by
  intro s k inv hstate hlen
  obtain ⟨w, hwinit⟩ : ∃ w, exec .winit s = .next (windowFrom 0 (offer w s)) := by
    rw [exec_winit hstate (by omega), openWindow_eq_windowFrom]
    exact ⟨_, rfl⟩
  have hin : k + s.pbits.toNat ≤ s.hayBits := by omega
  obtain ⟨r, hshifts⟩ := runCommands_wshift (s := offer w s) (o := 0) k (inv.offer w) hstate
    (by rwa [Nat.zero_add])
  rw [Nat.zero_add] at hshifts
  refine ⟨windowFrom k { offer w s with rsp := r }, ?_, rfl, ?_, windowFrom_lhash_toNat k s⟩
  · rw [runCommands, hwinit]
    exact hshifts
  · exact (windowFrom_wend_toNat hin).trans (Nat.add_comm _ _)

end Sys2Proof.Machine
end

section
/-! PROOFS. Equal bits have equal hashes, so the hash test rejects no match (42_rolling_hash_scanner.md R176). -/

namespace Sys2Proof.Machine

variable {s : State} {o : Nat}

/-- Where the pattern occurs the haystack bits have the pattern's hash (10_state.md R42 I6). -/
theorem bitHash_of_occursAt (inv : Invariants s) (hstate : s.pstate = .ready) (hocc : s.occursAt o) :
    bitHash (s.bitAt .haystack) o s.pbits.toNat = s.phash.toNat := by
  obtain ⟨hfill, -⟩ := inv.ready hstate
  rw [inv.phash (by rw [hstate]; decide), hfill, bitHash, bitHash]
  congr 1
  exact bitNumber_congr fun i hi => by rw [Nat.zero_add, hocc i hi]

theorem windowFrom_lhash_of_occursAt (inv : Invariants s) (hstate : s.pstate = .ready) (hocc : s.occursAt o) :
    (windowFrom o s).lhash = s.phash :=
  BitVec.eq_of_toNat_eq ((windowFrom_lhash_toNat o s).trans (bitHash_of_occursAt inv hstate hocc))

/-- Settles O29: `bitHash_of_occursAt` at the window, then the numbers 0 and `0xA7 = 167` of two bytes. -/
theorem equalBitsGiveEqualHashes : Obligations.EqualBitsGiveEqualHashes := by
  refine ⟨fun s inv hvalid hfresh hocc => BitVec.eq_of_toNat_eq ?_, ?_⟩
  · rw [hfresh hvalid]
    exact bitHash_of_occursAt inv (inv.window hvalid).1 hocc
  · rw [bitHash, bitHash, bitNumber_bitOf _ _ _ le_rfl, bitNumber_bitOf _ _ _ le_rfl]
    decide

end Sys2Proof.Machine
end

section
/-! PROOFS. `SCAN` (42_rolling_hash_scanner.md R168 to R173): the loop passes through the windows from offset 0 on and
ends at the first one where the pattern occurs, or at the last one. -/

namespace Sys2Proof.Machine

variable {s : State} {o k : Nat}

/-! ### One turn of the loop -/

/-- The check at offset `o` confirms a match exactly where the pattern occurs: the hash test rejects none (R176). -/
theorem checkWindow_windowFrom (inv : Invariants s) (hstate : s.pstate = .ready)
    (hin : o + s.pbits.toNat ≤ s.hayBits) :
    ∃ hit, checkWindow (windowFrom o s) = .ok (hit, decide (s.occursAt o)) := by
  have hcheck : checkWindow (windowFrom o s) =
      .ok (if (windowFrom o s).lhash = s.phash then
        (true, decide (s.occursAt ((windowFrom o s).wend.toNat - s.pbits.toNat))) else (false, false)) :=
    checkWindow_eq (windowInside_windowFrom inv.fill.2 hin)
  rw [hcheck, windowFrom_start hin]
  split_ifs with hhit
  · exact ⟨true, rfl⟩
  · have hnot : ¬ s.occursAt o := fun hocc => hhit (windowFrom_lhash_of_occursAt inv hstate hocc)
    exact ⟨false, by rw [decide_eq_false hnot]⟩

theorem scanLoop_of_occursAt (inv : Invariants s) (hstate : s.pstate = .ready)
    (hin : o + s.pbits.toNat ≤ s.hayBits) (hocc : s.occursAt o) :
    scanLoop k (windowFrom o s) = scanFound o (windowFrom o s) := by
  obtain ⟨hit, hcheck⟩ := checkWindow_windowFrom inv hstate hin
  rw [decide_eq_true hocc] at hcheck
  have hstart : (windowFrom o s).wend.toNat - (windowFrom o s).pbits.toNat = o := windowFrom_start hin
  cases k <;> rw [scanLoop, hcheck, andThen, if_pos rfl, hstart]

theorem scanLoop_last (inv : Invariants s) (hstate : s.pstate = .ready)
    (hin : o + s.pbits.toNat ≤ s.hayBits) (hocc : ¬ s.occursAt o) :
    scanLoop 0 (windowFrom o s) = scanNotFound (windowFrom o s) := by
  obtain ⟨hit, hcheck⟩ := checkWindow_windowFrom inv hstate hin
  rw [decide_eq_false hocc] at hcheck
  rw [scanLoop, hcheck, andThen, if_neg Bool.false_ne_true]

theorem scanLoop_shifts (inv : Invariants s) (hstate : s.pstate = .ready)
    (hlt : o + s.pbits.toNat < s.hayBits) (hocc : ¬ s.occursAt o) :
    scanLoop (k + 1) (windowFrom o s) = scanLoop k (windowFrom (o + 1) s) := by
  obtain ⟨hit, hcheck⟩ := checkWindow_windowFrom inv hstate hlt.le
  rw [decide_eq_false hocc] at hcheck
  rw [scanLoop, hcheck, andThen, if_neg Bool.false_ne_true, shiftWindow_windowFrom inv hstate hlt, andThen]

/-! ### How SCAN ends -/

/-- The state that `SCAN` of a complete pattern leaves, for each of its ends (R168 to R170, R173). -/
inductive ScanEnds (s : State) : State → Prop
  | empty (hempty : s.pbits = 0) : ScanEnds s (offer (responseWord 0 .found 0) (setFound 0 s))
  | tooLong (hpos : s.pbits ≠ 0) (hlong : s.hayBits < s.pbits.toNat) :
      ScanEnds s (offer (responseWord 0 .notFound 0) (setNotFound s))
  | found (off : Nat) (hpos : s.pbits ≠ 0) (hin : off + s.pbits.toNat ≤ s.hayBits) (hocc : s.occursAt off)
      (hfirst : ∀ o < off, ¬ s.occursAt o) :
      ScanEnds s (offer (responseWord 0 .found (BitVec.ofNat 24 off)) (setFound off (windowFrom off s)))
  | notFound (hpos : s.pbits ≠ 0) (hlen : s.pbits.toNat ≤ s.hayBits)
      (hnone : ∀ o, o + s.pbits.toNat ≤ s.hayBits → ¬ s.occursAt o) :
      ScanEnds s (offer (responseWord 0 .notFound 0) (setNotFound (windowFrom (s.hayBits - s.pbits.toNat) s)))

/-- From the window at `o`, with no match before it and `k` shifts left to the last one. -/
theorem scanLoop_ends (inv : Invariants s) (hstate : s.pstate = .ready) (hpos : s.pbits ≠ 0)
    (hk : o + s.pbits.toNat + k = s.hayBits) (hbefore : ∀ p < o, ¬ s.occursAt p) :
    ∃ t, scanLoop k (windowFrom o s) = .next t ∧ ScanEnds s t := by
  induction k generalizing o with
  | zero =>
    by_cases hocc : s.occursAt o
    · exact ⟨_, scanLoop_of_occursAt inv hstate hk.le hocc, .found o hpos hk.le hocc hbefore⟩
    · obtain rfl : o = s.hayBits - s.pbits.toNat := by omega
      refine ⟨_, scanLoop_last inv hstate hk.le hocc, .notFound hpos (by omega) fun p hp => ?_⟩
      obtain hlt | rfl : p < s.hayBits - s.pbits.toNat ∨ p = s.hayBits - s.pbits.toNat := by omega
      · exact hbefore p hlt
      · exact hocc
  | succ k ih =>
    by_cases hocc : s.occursAt o
    · exact ⟨_, scanLoop_of_occursAt inv hstate (by omega) hocc, .found o hpos (by omega) hocc hbefore⟩
    · rw [scanLoop_shifts inv hstate (by omega) hocc]
      exact ih (by omega) (Nat.forall_lt_succ_right.mpr ⟨hbefore, hocc⟩)

theorem pbits_toNat_eq_zero : s.pbits.toNat = 0 ↔ s.pbits = 0 :=
  ⟨fun h => BitVec.eq_of_toNat_eq h, congrArg BitVec.toNat⟩

/-- `SCAN` of a complete pattern completes, in one of the four ways. -/
theorem exec_scan_ends (inv : Invariants s) (hstate : s.pstate = .ready) :
    ∃ t, exec .scan s = .next t ∧ ScanEnds s t := by
  change ∃ t, execScan s = .next t ∧ ScanEnds s t
  rw [execScan, if_neg (not_not.mpr hstate)]
  split_ifs with hempty hlong
  · exact ⟨_, rfl, .empty (pbits_toNat_eq_zero.mp hempty)⟩
  · exact ⟨_, rfl, .tooLong (pbits_toNat_eq_zero.not.mp hempty) hlong⟩
  · rw [hashInit_eq (not_lt.mp hlong), andThen, openWindow_eq_windowFrom]
    exact scanLoop_ends inv hstate (pbits_toNat_eq_zero.not.mp hempty) (by omega)
      fun p hp => absurd hp (Nat.not_lt_zero p)

/-! ### What SCAN finds and leaves -/

theorem first_occurrence_unique {a b : Nat} (ha : s.occursAt a) (hb : s.occursAt b)
    (hfirsta : ∀ p < a, ¬ s.occursAt p) (hfirstb : ∀ p < b, ¬ s.occursAt p) : a = b :=
  le_antisymm (not_lt.mp fun hlt => hfirsta b hlt hb) (not_lt.mp fun hlt => hfirstb a hlt ha)

/-- The empty pattern occurs everywhere. -/
theorem occursAt_of_empty (hempty : s.pbits = 0) (o : Nat) : s.occursAt o := by
  intro i hi
  rw [hempty] at hi
  exact absurd hi (Nat.not_lt_zero i)

/-- Settles O25: each end of `SCAN` meets the premises of one clause only, but for the empty pattern, whose first match
is the one at 0. -/
theorem scanFindsTheFirstMatch : Obligations.ScanFindsTheFirstMatch := by
  intro s inv hstate
  obtain ⟨t, hscan, hends⟩ := exec_scan_ends inv hstate
  refine ⟨t, hscan, ?_⟩
  cases hends with
  | empty hempty =>
    refine ⟨fun _ => ⟨rfl, rfl, rfl⟩, fun off _ hocc hfirst => ?_, fun hpos => absurd hempty hpos⟩
    obtain rfl : off = 0 := first_occurrence_unique hocc (occursAt_of_empty hempty 0) hfirst nofun
    exact ⟨rfl, rfl, rfl⟩
  | tooLong hpos hlong =>
    have hnowhere : ∀ off, ¬ off + s.pbits.toNat ≤ s.hayBits := fun off => by omega
    exact ⟨fun hempty => absurd hempty hpos, fun off hin => absurd hin (hnowhere off), fun _ _ => ⟨rfl, rfl, rfl⟩⟩
  | found off hpos hin hocc hfirst =>
    refine ⟨fun hempty => absurd hempty hpos, fun off' _ hocc' hfirst' => ?_,
      fun _ hnone => absurd hocc (hnone off hin)⟩
    obtain rfl : off' = off := first_occurrence_unique hocc' hocc hfirst' hfirst
    exact ⟨rfl, rfl, toNat_ofNat_24 (Nat.le_of_add_right_le hin)⟩
  | notFound hpos _ hnone =>
    exact ⟨fun hempty => absurd hempty hpos, fun off hin hocc => absurd hocc (hnone off hin),
      fun _ _ => ⟨rfl, rfl, rfl⟩⟩

/-- Settles O26: the window registers are untouched by the early exits, else those of the window `SCAN` ended at. -/
theorem scanLeavesTheWindow : Obligations.ScanLeavesTheWindow := by
  intro s t inv hstate hexec
  obtain ⟨t', hscan, hends⟩ := exec_scan_ends inv hstate
  obtain rfl : t' = t := Host.Outcome.next.inj (hscan.symm.trans hexec)
  cases hends with
  | empty hempty => exact ⟨fun _ => ⟨rfl, rfl, rfl⟩, fun hpos => absurd hempty hpos, rfl⟩
  | tooLong _ hlong => exact ⟨fun _ => ⟨rfl, rfl, rfl⟩, fun _ hlen => absurd hlong (not_lt.mpr hlen), rfl⟩
  | found off hpos hin hocc =>
    have hrun : ¬ (s.pbits = 0 ∨ s.hayBits < s.pbits.toNat) := not_or.mpr ⟨hpos, by omega⟩
    have hmoff : (BitVec.ofNat 24 off).toNat = off := toNat_ofNat_24 (Nat.le_of_add_right_le hin)
    have hwend : (windowFrom off s).wend.toNat = (BitVec.ofNat 24 off).toNat + s.pbits.toNat := by
      rw [windowFrom_wend_toNat hin, hmoff]
    exact ⟨fun hearly => absurd hearly hrun,
      fun _ _ => ⟨rfl, fun _ => ⟨hwend, windowFrom_lhash_of_occursAt inv hstate hocc⟩, nofun⟩, rfl⟩
  | notFound hpos hlen =>
    have hrun : ¬ (s.pbits = 0 ∨ s.hayBits < s.pbits.toNat) := not_or.mpr ⟨hpos, not_lt.mpr hlen⟩
    have hlast : s.hayBits - s.pbits.toNat + s.pbits.toNat = s.hayBits := Nat.sub_add_cancel hlen
    have hwend := (windowFrom_wend_toNat hlast.le).trans hlast
    exact ⟨fun hearly => absurd hearly hrun,
      fun _ _ => ⟨rfl, nofun, fun _ => ⟨hwend, windowFrom_lhash_toNat _ s⟩⟩, rfl⟩

end Sys2Proof.Machine
end

section
/-! PROOFS. The exact matcher decides (43_exact_matcher.md R190 to R192): `MATCH` answers whether the pattern occurs and
a match that `SCAN` or `WCHECK` reports is one, with no assumption on the hashes. -/

namespace Sys2Proof.Machine

variable {s t : State}

/-! ### MATCH -/

/-- An accepted `MATCH` (R191). -/
theorem exec_matchAt {off : Nat} (hstate : s.pstate = .ready) (hcap : ceil8 s.pbits.toNat ≤ s.patCap)
    (hin : off + s.pbits.toNat ≤ s.hayBits) :
    exec (.matchAt off) s = respond .value (if s.occursAt off then 1#24 else 0#24) s := by
  change execMatch off s = _
  rw [execMatch, if_neg (not_not.mpr hstate), if_neg (not_lt.mpr hin), patternMatches_eq hcap hin, andThen]
  split_ifs with hocc
  · rw [decide_eq_true hocc]
    rfl
  · rw [decide_eq_false hocc]
    rfl

/-- Settles O30: the two errors, then `exec_matchAt`. -/
theorem matchComparesTheBits : Obligations.MatchComparesTheBits := by
  intro off s hcap
  split
  case isTrue hstate => exact if_pos hstate
  case isFalse hstate =>
    split
    case isTrue hlong => exact (if_neg hstate).trans (if_pos hlong)
    case isFalse hlong => exact exec_matchAt (not_not.mp hstate) hcap (not_lt.mp hlong)

/-! ### No false match -/

/-- A check that confirms a match asked the matcher, so the pattern occurs at the window start: a hash that is wrong can
only keep the matcher from running (R192). -/
theorem checkWindow_confirms {hit : Bool} (h : checkWindow s = .ok (hit, true)) :
    s.occursAt (s.wend.toNat - s.pbits.toNat) := by
  obtain ⟨-, ⟨-, -, hmatch⟩ | ⟨-, -, hfalse⟩⟩ := checkWindow_ok h
  · exact of_decide_eq_true (patternMatches_ok hmatch).symm
  · cases hfalse

/-- `MOFF` holds every offset that a window can start at. -/
theorem setFound_moff_toNat (n : Nat) (e : BitVec 24) (s : State) :
    (setFound (e.toNat - n) s).moff.toNat = e.toNat - n := by
  rw [setFound_moff, BitVec.toNat_ofNat, Nat.mod_eq_of_lt ((Nat.sub_le _ _).trans_lt e.isLt)]

/-- The loop ends with the verdict `FOUND` only at a window whose check confirmed it. -/
theorem scanLoop_found {k : Nat} (h : scanLoop k s = .next t) (hfound : t.verdict = .found) :
    s.occursAt t.moff.toNat := by
  obtain ⟨l, e, ⟨hcheck, hend⟩ | ⟨-, hend⟩⟩ := scanLoop_next h
  · have hocc : (atWindow s l e).occursAt (e.toNat - s.pbits.toNat) := checkWindow_confirms hcheck
    rw [respond_next.mp hend, offer_moff, setFound_moff_toNat]
    exact hocc
  · rw [respond_next.mp hend] at hfound
    cases hfound

/-- A `SCAN` of a complete pattern that ends `FOUND`: the empty pattern occurs anywhere, else the loop found it. -/
theorem exec_scan_found (hstate : s.pstate = .ready) (h : exec .scan s = .next t) (hfound : t.verdict = .found) :
    s.occursAt t.moff.toNat := by
  change execScan s = .next t at h
  rw [execScan, if_neg (not_not.mpr hstate)] at h
  split_ifs at h with hempty
  · exact occursAt_of_empty (pbits_toNat_eq_zero.mp hempty) _
  · rw [respond_next.mp h] at hfound
    cases hfound
  · obtain ⟨v, -, hloop⟩ := andThen_next.mp h
    exact scanLoop_found (s := openWindow v s) hloop hfound

theorem responseWord_val_inj {errc : Nat} {k : Kind} {v w : BitVec 24}
    (h : responseWord errc k v = responseWord errc k w) : v = w :=
  (BitVec.append_right_inj _).mp h

/-- A `WCHECK` that answers 3 had both bits set: the match bit is the check's. -/
theorem exec_wcheck_three (h : exec .wcheck s = .next t) (hrsp : t.rsp = some (responseWord 0 .value 3#24)) :
    s.occursAt (s.wend.toNat - s.pbits.toNat) := by
  change execWcheck s = .next t at h
  unfold execWcheck at h
  split_ifs at h
  · rw [raise_next.mp h, afterError_rsp] at hrsp
    exact absurd (Option.some.inj hrsp).symm (errorWord_ne_success _ _ _)
  · obtain ⟨⟨hit, m⟩, hcheck, hend⟩ := andThen_next.mp h
    rw [respond_next.mp hend, offer_rsp] at hrsp
    have hval := responseWord_val_inj (Option.some.inj hrsp)
    cases m with
    | true => exact checkWindow_confirms hcheck
    | false => cases hit <;> exact absurd hval (by decide)

/-- Settles O28: each report goes back to a check that confirmed the match. -/
theorem foundIsNeverFalse : Obligations.FoundIsNeverFalse :=
  ⟨fun _ _ => exec_scan_found, fun _ _ => exec_wcheck_three⟩

end Sys2Proof.Machine
end

section
/-! PROOFS. The system commands (44_system_commands.md R200 to R203), each as an equation of the state it leaves. -/

namespace Sys2Proof.Machine

variable {s : State} {r : Nat}

/-! ### NOP, CLRERR, SRESET -/

/-- The response of a command that succeeds and has nothing to say is the word 0 (30_encoding.md R99). -/
theorem respond_none_eq (s : State) : respond .none 0 s = .next (offer 0x00000000#32 s) := rfl

/-- Settles O32: `NOP` is the response alone. -/
theorem nopDoesNothing : Obligations.NopDoesNothing :=
  ⟨rfl, respond_none_eq⟩

/-- Settles O34: `CLRERR` is the response after `clearError`. -/
theorem clrerrClearsErr : Obligations.ClrerrClearsErr :=
  ⟨rfl, fun s => respond_none_eq (clearError s)⟩

/-- A reset of the registers keeps only what is no register; the rest is as in the state after hardware reset
(10_state.md R43). -/
theorem resetRegisters_eq_reset (s : State) : resetRegisters s =
    { State.reset with
      pm := s.pm, hm := s.hm, patCap := s.patCap, host := s.host, rsp := s.rsp, freeIx := s.freeIx } := rfl

/-- Settles O35: `SRESET` is the response after `resetRegisters`, which gives the registers of `State.reset`. -/
theorem sresetRestoresTheRegisters : Obligations.SresetRestoresTheRegisters := by
  refine ⟨rfl, fun s => ?_⟩
  change respond .none 0 (resetRegisters s) = _
  rw [respond_none_eq, resetRegisters_eq_reset, offer]

/-! ### RDREG -/

/-- A number above 12 names no register (10_state.md R21). -/
theorem reg_of_twelve_lt (hr : 12 < r) (s : State) : s.reg r = none := by
  unfold State.reg
  split
  case h_14 => rfl
  all_goals exact absurd hr (by decide)

theorem exec_rdreg_of_reg {v : BitVec 24} (h : s.reg r = some v) : exec (.rdreg r) s = respond .value v s := by
  change execRdreg r s = _
  rw [execRdreg, h]

theorem exec_rdreg_of_no_reg (h : s.reg r = none) : exec (.rdreg r) s = .next (afterError .range s) := by
  change execRdreg r s = _
  rw [execRdreg, h, raise]

/-- A register narrower than 24 bits, zero-extended, is its number in 24 bits. -/
theorem some_setWidth_24 {n : Nat} (x : BitVec n) : some (x.setWidth 24) = some (BitVec.ofNat 24 x.toNat) := by
  rw [BitVec.ofNat_toNat]

/-- A register of 24 bits is its number in 24 bits. -/
theorem some_eq_ofNat_24 (x : BitVec 24) : some x = some (BitVec.ofNat 24 x.toNat) := by
  rw [BitVec.ofNat_toNat, BitVec.setWidth_eq]

/-- `STATUS` as {WVALID, PSTATE} (10_state.md R23). -/
theorem statusValue_eq (s : State) : statusValue s = 4 * s.wvalid.toNat + s.pstate.code := by
  rw [statusValue, Nat.mul_comm]

/-- Settles O33: register by register, what `State.reg` holds as a number; the three registers of named values by the
codes of their values. -/
theorem rdregReadsTheRegister : Obligations.RdregReadsTheRegister := by
  intro s reads
  have hread {r v : Nat} (h : s.reg r = some (BitVec.ofNat 24 v)) : reads r v := exec_rdreg_of_reg h
  have hstatus : reads 1 (4 * s.wvalid.toNat + s.pstate.code) :=
    hread (congrArg (fun n => some (BitVec.ofNat 24 n)) (statusValue_eq s))
  have herr : reads 2 (errValue s.err) := hread rfl
  have hverdict : reads 11 s.verdict.code := hread rfl
  refine ⟨hread rfl, ?_, ?_, hread (some_setWidth_24 _), hread (some_eq_ofNat_24 _), hread (some_eq_ofNat_24 _),
    hread (some_setWidth_24 _), hread (some_setWidth_24 _), hread (some_setWidth_24 _), hread (some_setWidth_24 _),
    hread (some_eq_ofNat_24 _), ?_, hread (some_eq_ofNat_24 _),
    fun r hr => exec_rdreg_of_no_reg (reg_of_twelve_lt hr s)⟩
  · cases hp : s.pstate <;> rwa [hp] at hstatus
  · rcases he : s.err with _ | _ | _ <;> rwa [he] at herr
  · cases hv : s.verdict <;> rwa [hv] at hverdict

end Sys2Proof.Machine
end

section
/-! PROOFS. The error table (60_exceptions.md R221 to R224): what `raise` writes, and that every command reports the
first error of its row that applies, or none. -/

namespace Sys2Proof.Machine

variable {s t : State} {i : Instr} {e : Err}

/-! ### raise -/

/-- The first error is kept (10_state.md R24). -/
theorem err_or_some (x : Option Err) (e : Err) : x.or (some e) = if x = none then some e else x := by
  cases x <;> rfl

theorem errorWord_eq (e : Err) : errorWord e = BitVec.ofNat 32 (e.code <<< 28) := by
  rw [← errorWord_toNat, BitVec.ofNat_toNat, BitVec.setWidth_eq]

/-- Settles O36: `raise` is `afterError` with its `ERR` and its response word written out. -/
theorem raiseWritesOnlyErr : Obligations.RaiseWritesOnlyErr := fun e s => by
  rw [raise, afterError, err_or_some, errorWord_eq, offer]

/-! ### A command with an error in its row -/

/-- How a command fails with `e`: `raise`, and a malformed nibble discards the pattern too (R224). -/
def failWith (e : Err) (s : State) : Result :=
  raise e (if e = .malformed then { s with pstate := .none } else s)

section
variable {p q c d : Prop} [Decidable p] [Decidable q] [Decidable c] [Decidable d] {a b : Err} {r : Result}

/-- A command with one check fails with the error of its row. -/
theorem failWith_of_check (hc : p → c) (h : (if p then some a else none) = some e) :
    (if c then failWith a s else r) = failWith e s := by
  obtain ⟨hp, ha⟩ := Option.ite_none_right_eq_some.mp h
  rw [if_pos (hc hp), Option.some.inj ha]

/-- A command with two checks, made in the order of its row, fails with the first error that applies (R222). -/
theorem failWith_of_checks (hc : p ↔ c) (hd : q → d)
    (h : (if p then some a else if q then some b else none) = some e) :
    (if c then failWith a s else if d then failWith b s else r) = failWith e s := by
  split_ifs at h with hp hq
  · rw [if_pos (hc.mp hp), Option.some.inj h]
  · rw [if_neg (hc.not.mp hp), if_pos (hd hq), Option.some.inj h]

end

/-- Every check of the table is made by its command, and in the table's order (R221, R222). -/
theorem exec_of_errorOf (h : errorOf s i = some e) : exec i s = failWith e s := by
  cases i with
  | nop | clrerr | sreset => cases h
  | haylen n => exact failWith_of_check id h
  | patbegin n => exact failWith_of_check id h
  | patnib v => exact failWith_of_checks .rfl id h
  | scan => exact failWith_of_check id h
  | matchAt off => exact failWith_of_checks .rfl id h
  | exth off cnt => exact failWith_of_check decide_eq_true h
  | extp off cnt => exact failWith_of_checks .rfl decide_eq_true h
  | rdreg r =>
    obtain ⟨hr, ⟨⟩⟩ := Option.ite_none_right_eq_some.mp h
    exact exec_rdreg_of_no_reg (reg_of_twelve_lt hr s)
  | winit => exact failWith_of_checks .rfl id h
  | wcheck => exact failWith_of_check noWindow_eq_true.mpr h
  | wshift => exact failWith_of_checks noWindow_eq_true.symm id h

/-! ### A command with none -/

/-- A malformed nibble is in the row of `PATNIB`. -/
theorem errorOf_patnib_malformed {v : Nat} (hstate : s.pstate = .loading) (hv : 16 ≤ v) :
    errorOf s (.patnib v) = some .malformed := by
  rw [errorOf, if_neg (not_not.mpr hstate), if_pos hv]

/-- A command ends without an error of its row only by an effect. -/
theorem Ends.done_of_errorOf_none (h : Ends s i t) (hnone : errorOf s i = none) :
    ∃ k val u, Effect s i u ∧ t = offer (responseWord 0 k val) u := by
  cases h with
  | failed herr => rw [herr] at hnone; cases hnone
  | malformed hstate hv => rw [errorOf_patnib_malformed hstate hv] at hnone; cases hnone
  | done k val heff => exact ⟨k, val, _, heff, rfl⟩

/-- The response of a success has `ERRC` 0 (30_encoding.md R98). -/
theorem responseWord_zero_errc (k : Kind) (val : BitVec 24) : (responseWord 0 k val).extractLsb' 28 4 = 0#4 :=
  BitVec.eq_of_toNat_eq (opField_responseWord 0 k val (by decide))

/-- A command with no error in its row completes: with the invariants it responds, and its end is an effect. -/
theorem exec_of_errorOf_none (inv : Invariants s) (hnone : errorOf s i = none) :
    ∃ t r, exec i s = .next t ∧ t.rsp = some r ∧ r.extractLsb' 28 4 = 0#4 ∧
      (t.err = s.err ∨ i = .clrerr ∨ i = .sreset) := by
  obtain ⟨t, -, hexec, -, -⟩ := exec_responds inv i
  obtain ⟨k, val, u, heff, rfl⟩ := (exec_ends hexec).done_of_errorOf_none hnone
  exact ⟨_, _, hexec, offer_rsp u _, responseWord_zero_errc k val, heff.err_eq⟩

/-- Settles O37: an illegal word is refused by the decoder; any other decodes to a command that fails with the error of
its row (`exec_of_errorOf`) or completes (`exec_of_errorOf_none`). -/
theorem commandsFollowTheErrorTable : Obligations.CommandsFollowTheErrorTable := by
  refine fun w s inv => ⟨fun hillegal => deliver_of_illegalWord hillegal s, fun hlegal => ?_⟩
  obtain ⟨i, hdec⟩ := exists_decode_ok_iff.mpr hlegal
  rw [deliver_of_decode_ok hdec]
  exact ⟨i, hdec, fun _ => exec_of_errorOf, exec_of_errorOf_none inv⟩

end Sys2Proof.Machine
end

section
/-! PROOFS. What stays of a pattern and of a search: a complete pattern is altered only by a new compile or a reset
(70_reset_and_hazards.md R256), and `SCAN` reads only the pattern, the haystack length and the haystack (R253). -/

namespace Sys2Proof.Machine

variable {s s' t u : State} {i : Instr}

/-! ### The pattern is kept -/

/-- The compiler's registers and pattern memory are as before. -/
structure PatternKept (s t : State) : Prop where
  pstate : t.pstate = s.pstate
  pbits : t.pbits = s.pbits
  pfill : t.pfill = s.pfill
  phash : t.phash = s.phash
  pcan : t.pcan = s.pcan
  rnum : t.rnum = s.rnum
  pm : t.pm = s.pm

theorem patternKept_afterError (e : Err) (s : State) : PatternKept s (afterError e s) :=
  ⟨rfl, rfl, rfl, rfl, rfl, rfl, rfl⟩

/-- The commands that the register table names for `PFILL` (10_state.md R21) are those that alter the pattern. -/
theorem Effect.patternKept (heff : Effect s i u) (hi : writesReg i 5 = false) : PatternKept s u := by
  cases heff with
  | patbegin | patnib | sreset => cases hi
  | wshift _ _ hshift =>
    obtain ⟨l, e, rfl⟩ := shiftWindow_eq_atWindow hshift
    exact ⟨rfl, rfl, rfl, rfl, rfl, rfl, rfl⟩
  | scanFound _ _ _ _ hslid | scanNotFound _ _ _ _ hslid =>
    obtain ⟨l, e, rfl⟩ := SlidTo.eq_atWindow hslid
    exact ⟨rfl, rfl, rfl, rfl, rfl, rfl, rfl⟩
  | _ => exact ⟨rfl, rfl, rfl, rfl, rfl, rfl, rfl⟩

theorem Ends.patternKept (h : Ends s i t) (hi : writesReg i 5 = false) : PatternKept s t := by
  cases h with
  | failed => exact patternKept_afterError _ s
  | malformed => cases hi
  | done _ _ heff => exact { heff.patternKept hi with }

/-- With a complete pattern a nibble is refused, so `PATNIB` is no exception there (10_state.md R34). -/
theorem patternKept_of_ready (hready : s.pstate = .ready) (h : exec i s = .next t) (hbegin : ∀ n, i ≠ .patbegin n)
    (hreset : i ≠ .sreset) : PatternKept s t := by
  cases i with
  | patbegin n => exact absurd rfl (hbegin n)
  | sreset => exact absurd rfl hreset
  | patnib v =>
    rw [exec_patnib_not_loading (by simp [hready])] at h
    exact Host.Outcome.next.inj h ▸ patternKept_afterError .state s
  | _ => exact (exec_ends h).patternKept rfl

/-- Settles O41: no command but `PATBEGIN`, `SRESET` and, while loading, `PATNIB` writes what a pattern consists of. -/
theorem readyPatternIsImmutable : Obligations.ReadyPatternIsImmutable := by
  intro i s t hready h hbegin hreset
  obtain ⟨hpstate, hpbits, hpfill, hphash, hpcan, hrnum, hpm⟩ := patternKept_of_ready hready h hbegin hreset
  exact ⟨hpstate.trans hready, hpbits, hpfill, hphash, hpcan, hrnum, hpm⟩

/-- `PATBEGIN` does not touch what `HAYLEN` and the host set. -/
theorem exec_patbegin_haystack {n : Nat} (h : exec (.patbegin n) s = .next t) : t.hbytes = s.hbytes ∧ t.hm = s.hm := by
  refine ⟨?_, (exec_ends h).sameOutside.hm⟩
  cases exec_ends h with
  | failed => rfl
  | done _ _ heff => cases heff; rfl

/-! ### What SCAN reads -/

/-- All that a search depends on (R253): the pattern, the haystack length and the haystack; the capacity of
pattern memory is the parameter `PAT_CAP_BYTES`. -/
structure SameInput (s s' : State) : Prop where
  pstate : s'.pstate = s.pstate
  pbits : s'.pbits = s.pbits
  phash : s'.phash = s.phash
  pcan : s'.pcan = s.pcan
  pm : s'.pm = s.pm
  patCap : s'.patCap = s.patCap
  hbytes : s'.hbytes = s.hbytes
  hm : s'.hm = s.hm

theorem SameInput.refl (s : State) : SameInput s s := ⟨rfl, rfl, rfl, rfl, rfl, rfl, rfl, rfl⟩

theorem SameInput.hayBits (h : SameInput s s') : s'.hayBits = s.hayBits := by
  rw [State.hayBits, State.hayBits, h.hbytes]

theorem SameInput.sameBuffers (h : SameInput s s') : SameBuffers s s' where
  bits
    | .haystack => h.hayBits
    | .pattern => congrArg BitVec.toNat h.pbits
  bytes
    | .haystack => congrArg BitVec.toNat h.hbytes
    | .pattern => h.patCap
  contents
    | .haystack => byteAt_congr (sp := .haystack) h.hm
    | .pattern => byteAt_congr (sp := .pattern) h.pm

/-- The same input, and the window at the same place with the same hash. -/
structure SameWindow (s s' : State) : Prop extends SameInput s s' where
  lhash : s'.lhash = s.lhash
  wend : s'.wend = s.wend
  wvalid : s'.wvalid = s.wvalid

theorem SameInput.openWindow (h : SameInput s s') (v : Nat) : SameWindow (openWindow v s) (openWindow v s') :=
  { h with lhash := rfl, wend := h.pbits, wvalid := rfl }

namespace SameWindow

theorem windowStart (h : SameWindow s s') : windowStart s' = windowStart s := by
  rw [Machine.windowStart, Machine.windowStart, h.pbits, h.wend]

theorem checkWindow (h : SameWindow s s') : checkWindow s' = checkWindow s := by
  simp only [Machine.checkWindow, h.windowStart, h.lhash, h.phash, h.sameBuffers.patternMatches]

theorem moveWindow (h : SameWindow s s') (v : Nat) : SameWindow (moveWindow v s) (moveWindow v s') :=
  { h with
    lhash := rfl
    wend := by rw [moveWindow_wend, moveWindow_wend, h.wend] }

/-- The two windows shift alike (42_rolling_hash_scanner.md R166). -/
theorem shiftWindow (h : SameWindow s s') (hshift : shiftWindow s = .ok u) :
    ∃ v, u = Machine.moveWindow v s ∧ Machine.shiftWindow s' = .ok (Machine.moveWindow v s') := by
  obtain ⟨hstart, out, inc, hout, hinc, rfl⟩ := shiftWindow_ok hshift
  refine ⟨_, rfl, ?_⟩
  simp only [Machine.shiftWindow, h.windowStart, windowStart_ok.mpr ⟨hstart, rfl⟩, h.sameBuffers.extract, h.wend, hout,
    hinc, h.lhash, h.pcan]

end SameWindow

/-! ### What SCAN reports -/

/-- `s` with the report of a search as `t` holds it: the early exits of `SCAN` write no more (R169). -/
def withReport (t s : State) : State := { s with verdict := t.verdict, moff := t.moff, rsp := t.rsp }

/-- `s` with the report and the window of a search as `t` holds them: all that `SCAN` writes (R173). -/
def withSearch (t s : State) : State :=
  { withReport t s with lhash := t.lhash, wend := t.wend, wvalid := t.wvalid }

theorem sameInput_withReport (t s : State) : SameInput s (withReport t s) := { SameInput.refl s with }

theorem sameInput_withSearch (t s : State) : SameInput s (withSearch t s) := { SameInput.refl s with }

theorem withReport_self (t : State) : withReport t t = t := rfl

theorem withSearch_self (t : State) : withSearch t t = t := rfl

theorem scanFound_sameWindow {n : Nat} (h : SameWindow s s') (hs : scanFound n s = .next t) :
    scanFound n s' = .next (withSearch t s') := by
  obtain rfl := respond_next.mp hs
  refine respond_next.mpr ?_
  simp only [withSearch, withReport, offer, setFound, ← h.lhash, ← h.wend, ← h.wvalid]

theorem scanNotFound_sameWindow (h : SameWindow s s') (hs : scanNotFound s = .next t) :
    scanNotFound s' = .next (withSearch t s') := by
  obtain rfl := respond_next.mp hs
  refine respond_next.mpr ?_
  simp only [withSearch, withReport, offer, setNotFound, ← h.lhash, ← h.wend, ← h.wvalid]

/-- One turn of the loop: the checks agree, so both runs find the match here or both go on. -/
theorem turn_sameWindow {go go' : Result} (h : SameWindow s s')
    (hgo : go = .next t → go' = .next (withSearch t s'))
    (hs : andThen (checkWindow s) (fun c => if c.2 then scanFound (s.wend.toNat - s.pbits.toNat) s else go) =
      .next t) :
    andThen (checkWindow s') (fun c => if c.2 then scanFound (s'.wend.toNat - s'.pbits.toNat) s' else go') =
      .next (withSearch t s') := by
  obtain ⟨c, hcheck, hend⟩ := andThen_next.mp hs
  refine andThen_next.mpr ⟨c, h.checkWindow.trans hcheck, ?_⟩
  rw [h.wend, h.pbits]
  split_ifs at hend ⊢
  · exact scanFound_sameWindow h hend
  · exact hgo hend

/-- From the same window the loop makes the same checks and shifts and ends with the same report and window. -/
theorem scanLoop_sameWindow {k : Nat} (h : SameWindow s s') (hs : scanLoop k s = .next t) :
    scanLoop k s' = .next (withSearch t s') := by
  induction k generalizing s s' with
  | zero => exact turn_sameWindow h (scanNotFound_sameWindow h) hs
  | succ k ih =>
    refine turn_sameWindow h (fun hgo => ?_) hs
    obtain ⟨u, hshift, hloop⟩ := andThen_next.mp hgo
    obtain ⟨v, rfl, hshift'⟩ := h.shiftWindow hshift
    exact andThen_next.mpr ⟨_, hshift', ih (h.moveWindow v) hloop⟩

/-- On the same complete pattern and haystack `SCAN` ends with the same report; the window registers are untouched (the
early exits) or the same too. -/
theorem exec_scan_sameInput (h : SameInput s s') (hready : s.pstate = .ready) (hs : exec .scan s = .next t) :
    exec .scan s' = .next (withReport t s') ∨ exec .scan s' = .next (withSearch t s') := by
  change execScan s' = _ ∨ execScan s' = _
  change execScan s = _ at hs
  unfold execScan at hs ⊢
  rw [h.pstate, h.pbits, h.hayBits, h.sameBuffers.hashInit]
  rw [if_neg (not_not.mpr hready)] at hs ⊢
  split_ifs at hs ⊢
  · obtain rfl := respond_next.mp hs
    exact .inl rfl
  · obtain rfl := respond_next.mp hs
    exact .inl rfl
  · obtain ⟨v, hinit, hloop⟩ := andThen_next.mp hs
    exact .inr (andThen_next.mpr ⟨v, hinit, scanLoop_sameWindow (h.openWindow v) hloop⟩)

theorem exec_scan_not_ready (h : s.pstate ≠ .ready) : exec .scan s = .next (afterError .state s) :=
  exec_of_errorOf (if_pos h)

/-- Taking `s` itself for the other state, a `SCAN` leaves its input as it was. -/
theorem sameInput_of_scan (hready : s.pstate = .ready) (hs : exec .scan s = .next t) : SameInput s t := by
  obtain h | h := exec_scan_sameInput (.refl s) hready hs
  · rw [Host.Outcome.next.inj (hs.symm.trans h)]
    exact sameInput_withReport t s
  · rw [Host.Outcome.next.inj (hs.symm.trans h)]
    exact sameInput_withSearch t s

/-- A second failing command of the same error changes nothing (10_state.md R24). -/
theorem afterError_afterError (e : Err) (s : State) : afterError e (afterError e s) = afterError e s := by
  have herr : (s.err.or (some e)).or (some e) = s.err.or (some e) := by
    rw [Option.or_assoc, Option.or_self]
  simp only [afterError, offer, herr]

/-- A second `SCAN` finds the state that the first left and leaves it as it is. -/
theorem exec_scan_again (hs : exec .scan s = .next t) : exec .scan t = .next t := by
  by_cases hready : s.pstate = .ready
  · obtain h | h := exec_scan_sameInput (sameInput_of_scan hready hs) hready hs
    · rwa [withReport_self] at h
    · rwa [withSearch_self] at h
  · rw [exec_scan_not_ready hready] at hs
    obtain rfl := Host.Outcome.next.inj hs
    rw [exec_scan_not_ready (s := afterError .state s) hready, afterError_afterError]

/-- The report depends on the input only; with no complete pattern it is the error word, and `VERDICT` and `MOFF` stay. -/
theorem exec_scan_report (h : SameInput s s') (hs : exec .scan s = .next t) :
    ∃ t', exec .scan s' = .next t' ∧ t'.rsp = t.rsp ∧
      (s.pstate = .ready → t'.verdict = t.verdict ∧ t'.moff = t.moff) := by
  by_cases hready : s.pstate = .ready
  · obtain hs' | hs' := exec_scan_sameInput h hready hs
    · exact ⟨_, hs', rfl, fun _ => ⟨rfl, rfl⟩⟩
    · exact ⟨_, hs', rfl, fun _ => ⟨rfl, rfl⟩⟩
  · rw [exec_scan_not_ready hready] at hs
    obtain rfl := Host.Outcome.next.inj hs
    exact ⟨_, exec_scan_not_ready (h.pstate ▸ hready), rfl, fun hr => absurd hr hready⟩

/-- Settles O27: by comparing two runs of `SCAN` on the same input, the second clause for any two states, the first for
a state and the one that `SCAN` leaves. -/
theorem scanIsRepeatable : Obligations.ScanIsRepeatable := by
  refine ⟨fun s t => exec_scan_again, fun s s' t hpstate hpbits hphash hpcan hpm hcap hhbytes hhm =>
    exec_scan_report ⟨hpstate, hpbits, hphash, hpcan, hpm, hcap, hhbytes, hhm⟩, fun n s t h => ?_,
    fun n s t => exec_patbegin_haystack⟩
  have hkept : PatternKept s t := (exec_ends h).patternKept rfl
  exact ⟨hkept.pstate, hkept.pbits, hkept.phash, hkept.pcan, hkept.pm⟩

end Sys2Proof.Machine
end

section
/-! PROOFS. Hardware reset between commands and during one (70_reset_and_hazards.md R250, 93_implementation_defined.md
U9). -/

namespace Sys2Proof.Machine

variable {s : State} {w : Word} {a : Nat}

/-- Hardware reset keeps the memories and what lies outside the block, and offers no response (R250). -/
theorem hardReset_eq_reset (s : State) : hardReset s =
    { State.reset with pm := s.pm, hm := s.hm, patCap := s.patCap, host := s.host, freeIx := s.freeIx } := rfl

/-- Settles O44: the move is `hardReset`, made with the move taken off the queue. -/
theorem hardResetRestoresTheRegisters : Obligations.HardResetRestoresTheRegisters := by
  intro s rest h
  rw [step_of_host_cons h, hostMove, hardReset_eq_reset]

/-- Only a legal nibble of an open compile writes, and only the byte at `PFILL div 8` (20_memory.md R71). -/
theorem pendingWrite_eq_some (h : pendingWrite w s = some a) :
    a = s.pfill.toNat / 8 ∧ s.pstate = .loading ∧ ∃ v, v < 16 ∧ decode w = .ok (.patnib v) := by
  unfold pendingWrite at h
  split at h
  case h_1 v hdec =>
    obtain ⟨⟨hstate, hv, -⟩, ha⟩ := Option.ite_none_right_eq_some.mp h
    exact ⟨(Option.some.inj ha).symm, hstate, v, hv, hdec⟩
  case h_2 => cases h

/-- A dropped command ends in the state after hardware reset, but for pattern memory and the counter of free values. -/
theorem droppedCommand_eq_reset (w : Word) (s : State) : droppedCommand w s =
    { State.reset with
      pm := (droppedCommand w s).pm, hm := s.hm, patCap := s.patCap, host := s.host,
      freeIx := (droppedCommand w s).freeIx } := by
  unfold droppedCommand
  cases pendingWrite w s with
  | none => exact hardReset_eq_reset s
  | some a => rfl

/-- No byte of pattern memory but the one about to be written differs after a dropped command (log 7). -/
theorem droppedCommand_byteAt_of_ne (h : pendingWrite w s ≠ some a) :
    (droppedCommand w s).byteAt .pattern a = s.byteAt .pattern a := by
  unfold droppedCommand
  cases hwrite : pendingWrite w s with
  | none => exact hardReset_byteAt s .pattern a
  | some b =>
    have hab : a ≠ b := fun heq => h (heq ▸ hwrite)
    exact (byteAt_putPattern s b a _).trans (if_neg hab)

/-- Settles O46: the byte that differs is the pending write of the dropped word. -/
theorem droppedCommandLeavesResetRegisters : Obligations.DroppedCommandLeavesResetRegisters := by
  intro s w rest h
  refine ⟨droppedCommand w { s with host := rest }, step_of_host_cons h, droppedCommand_eq_reset w _,
    fun a hne => ?_⟩
  exact pendingWrite_eq_some (not_not.mp fun hwrite => hne (droppedCommand_byteAt_of_ne hwrite))

end Sys2Proof.Machine
end
